-- ==== Sys2Proof/Word.lean ====
section
/-! DEFINITION. The word types of the CHIP-8 core: 00_scope.md R13 (the widths) and R15 (unsigned values, bit 0 the
least significant). -/

namespace Sys2Proof

/-- One memory cell, one general register, one timer: 8 bits (R13). -/
abbrev Byte := BitVec 8

/-- An opcode, PC, I and a call-stack entry: 16 bits (R13). -/
abbrev Word := BitVec 16

/-- A 4-bit field of an opcode: a register index or a row count (R81). -/
abbrev Nibble := BitVec 4

/-- The 12-bit field NNN of an opcode (R81). -/
abbrev Addr12 := BitVec 12

end Sys2Proof
end

