-- ==== Sys2Proof/Syntax.lean ====
section
/-! DEFINITION. The instructions: one constructor per row of spec/opcode_table.json (30_encoding.md R84). The operands
are the fields of R81, each of its own width, so no operand is out of range. -/

namespace Sys2Proof

/-- The 34 operations of 30_encoding.md R84. `x`, `y` name registers, `n` is a row count (or the nibble that rows 7 and
19 do not consult, R86, log 16), `nn` a byte, `nnn` a 12-bit address. -/
inductive Instr where
  /-- Row 1, 00E0: CLS. -/
  | cls
  /-- Row 2, 00EE: RET. -/
  | ret
  /-- Row 3, 1NNN: JP NNN. -/
  | jp (nnn : Addr12)
  /-- Row 4, 2NNN: CALL NNN. -/
  | call (nnn : Addr12)
  /-- Row 5, 3XNN: SE Vx, NN. -/
  | seImm (x : Nibble) (nn : Byte)
  /-- Row 6, 4XNN: SNE Vx, NN. -/
  | sneImm (x : Nibble) (nn : Byte)
  /-- Row 7, 5XY0: SE Vx, Vy; n is kept as encoded and never consulted. -/
  | seReg (x y n : Nibble)
  /-- Row 8, 6XNN: LD Vx, NN. -/
  | ldImm (x : Nibble) (nn : Byte)
  /-- Row 9, 7XNN: ADD Vx, NN. -/
  | addImm (x : Nibble) (nn : Byte)
  /-- Row 10, 8XY0: LD Vx, Vy. -/
  | ldReg (x y : Nibble)
  /-- Row 11, 8XY1: OR Vx, Vy. -/
  | orReg (x y : Nibble)
  /-- Row 12, 8XY2: AND Vx, Vy. -/
  | andReg (x y : Nibble)
  /-- Row 13, 8XY3: XOR Vx, Vy. -/
  | xorReg (x y : Nibble)
  /-- Row 14, 8XY4: ADD Vx, Vy. -/
  | addReg (x y : Nibble)
  /-- Row 15, 8XY5: SUB Vx, Vy. -/
  | sub (x y : Nibble)
  /-- Row 16, 8XY6: SHR Vx, Vy (y is encoded, Vy is never read). -/
  | shr (x y : Nibble)
  /-- Row 17, 8XY7: SUBN Vx, Vy. -/
  | subn (x y : Nibble)
  /-- Row 18, 8XYE: SHL Vx, Vy (y is encoded, Vy is never read). -/
  | shl (x y : Nibble)
  /-- Row 19, 9XY0: SNE Vx, Vy; n is kept as encoded and never consulted. -/
  | sneReg (x y n : Nibble)
  /-- Row 20, ANNN: LD I, NNN. -/
  | ldI (nnn : Addr12)
  /-- Row 21, BNNN: JP V0, NNN. -/
  | jpV0 (nnn : Addr12)
  /-- Row 22, CXNN: RND Vx, NN. -/
  | rnd (x : Nibble) (nn : Byte)
  /-- Row 23, DXYN: DRW Vx, Vy, N. -/
  | drw (x y n : Nibble)
  /-- Row 24, EX9E: SKP Vx. -/
  | skp (x : Nibble)
  /-- Row 25, EXA1: SKNP Vx. -/
  | sknp (x : Nibble)
  /-- Row 26, FX07: LD Vx, DT. -/
  | ldVxDT (x : Nibble)
  /-- Row 27, FX0A: LD Vx, K. -/
  | ldVxK (x : Nibble)
  /-- Row 28, FX15: LD DT, Vx. -/
  | ldDTVx (x : Nibble)
  /-- Row 29, FX18: LD ST, Vx. -/
  | ldSTVx (x : Nibble)
  /-- Row 30, FX1E: ADD I, Vx. -/
  | addI (x : Nibble)
  /-- Row 31, FX29: LD F, Vx. -/
  | ldF (x : Nibble)
  /-- Row 32, FX33: LD B, Vx. -/
  | ldB (x : Nibble)
  /-- Row 33, FX55: LD [I], Vx. -/
  | storeRegs (x : Nibble)
  /-- Row 34, FX65: LD Vx, [I]. -/
  | loadRegs (x : Nibble)
  deriving DecidableEq, Repr

/-- The number of the instruction's row in 30_encoding.md R84. -/
def Instr.row : Instr → Nat
  | .cls => 1
  | .ret => 2
  | .jp _ => 3
  | .call _ => 4
  | .seImm _ _ => 5
  | .sneImm _ _ => 6
  | .seReg _ _ _ => 7
  | .ldImm _ _ => 8
  | .addImm _ _ => 9
  | .ldReg _ _ => 10
  | .orReg _ _ => 11
  | .andReg _ _ => 12
  | .xorReg _ _ => 13
  | .addReg _ _ => 14
  | .sub _ _ => 15
  | .shr _ _ => 16
  | .subn _ _ => 17
  | .shl _ _ => 18
  | .sneReg _ _ _ => 19
  | .ldI _ => 20
  | .jpV0 _ => 21
  | .rnd _ _ => 22
  | .drw _ _ _ => 23
  | .skp _ => 24
  | .sknp _ => 25
  | .ldVxDT _ => 26
  | .ldVxK _ => 27
  | .ldDTVx _ => 28
  | .ldSTVx _ => 29
  | .addI _ => 30
  | .ldF _ => 31
  | .ldB _ => 32
  | .storeRegs _ => 33
  | .loadRegs _ => 34

end Sys2Proof
end

