-- ==== Sys2Proof/WellFormed.lean ====
section
/-! DEFINITION. Which instructions an instance of the hardware has. Every operand has exactly the width of its field
(30_encoding.md R81), so the one check left is R86: with `STRICT_5_9` = true the low nibble of 5XYN and 9XYN must
be 0. -/

namespace Sys2Proof

/-- The instruction is one of the instance's, for its value of `STRICT_5_9` (30_encoding.md R86, 00_scope.md R14). -/
def Instr.wf (strict : Bool) : Instr → Bool
  | .seReg _ _ n => !strict || n == 0
  | .sneReg _ _ n => !strict || n == 0
  | _ => true

end Sys2Proof
end

