-- ==== Sys2Proof/Decode.lean ====
section
/-! DEFINITION. The fields of an opcode, the decoder, the encoder and the opcode map (30_encoding.md R80-R89). The bit
patterns and field positions are the spec's own, from general knowledge (log 5). -/

namespace Sys2Proof

/-! ### Fields (R81) -/

/-- c = op[15:12], the category. -/
def fieldC (op : Word) : Nibble := op.extractLsb' 12 4

/-- x = op[11:8]. -/
def fieldX (op : Word) : Nibble := op.extractLsb' 8 4

/-- y = op[7:4]. -/
def fieldY (op : Word) : Nibble := op.extractLsb' 4 4

/-- n = op[3:0]. -/
def fieldN (op : Word) : Nibble := op.extractLsb' 0 4

/-- nn = op[7:0]. -/
def fieldNN (op : Word) : Byte := op.extractLsb' 0 8

/-- nnn = op[11:0]. -/
def fieldNNN (op : Word) : Addr12 := op.extractLsb' 0 12

/-! ### The decoder (R83-R89) -/

/-- What `Decode(op)` gives: one of the 34 operations, or `InvalidOpcode(op)` (R83, R89). -/
inductive Decoded where
  | instr (i : Instr)
  | invalidOpcode (op : Word)
  deriving DecidableEq, Repr

/-- Category 0x0: the whole word selects (R85). -/
def decodeCat0 (op : Word) : Option Instr :=
  if op = 0x00E0#16 then some .cls
  else if op = 0x00EE#16 then some .ret
  else none

/-- Category 0x8: the low nibble selects (R85). -/
def decodeCat8 (x y n : Nibble) : Option Instr :=
  if n = 0x0#4 then some (.ldReg x y)
  else if n = 0x1#4 then some (.orReg x y)
  else if n = 0x2#4 then some (.andReg x y)
  else if n = 0x3#4 then some (.xorReg x y)
  else if n = 0x4#4 then some (.addReg x y)
  else if n = 0x5#4 then some (.sub x y)
  else if n = 0x6#4 then some (.shr x y)
  else if n = 0x7#4 then some (.subn x y)
  else if n = 0xE#4 then some (.shl x y)
  else none

/-- Category 0xE: the low byte selects (R85). -/
def decodeCatE (x : Nibble) (nn : Byte) : Option Instr :=
  if nn = 0x9E#8 then some (.skp x)
  else if nn = 0xA1#8 then some (.sknp x)
  else none

/-- Category 0xF: the low byte selects (R85). -/
def decodeCatF (x : Nibble) (nn : Byte) : Option Instr :=
  if nn = 0x07#8 then some (.ldVxDT x)
  else if nn = 0x0A#8 then some (.ldVxK x)
  else if nn = 0x15#8 then some (.ldDTVx x)
  else if nn = 0x18#8 then some (.ldSTVx x)
  else if nn = 0x1E#8 then some (.addI x)
  else if nn = 0x29#8 then some (.ldF x)
  else if nn = 0x33#8 then some (.ldB x)
  else if nn = 0x55#8 then some (.storeRegs x)
  else if nn = 0x65#8 then some (.loadRegs x)
  else none

/-- Categories 0x5 and 0x9: no secondary selector, unless `STRICT_5_9` asks for n = 0 (R86). -/
def strictNibble (strict : Bool) (n : Nibble) (i : Instr) : Option Instr :=
  if strict = true ∧ n ≠ 0x0#4 then none else some i

/-- The two levels of R83: the category, then its secondary selector. -/
def decodeCategory (strict : Bool) (op : Word) : Option Instr :=
  let x := fieldX op
  let y := fieldY op
  let n := fieldN op
  let nn := fieldNN op
  let nnn := fieldNNN op
  match (fieldC op).toNat with
  | 0x0 => decodeCat0 op
  | 0x1 => some (.jp nnn)
  | 0x2 => some (.call nnn)
  | 0x3 => some (.seImm x nn)
  | 0x4 => some (.sneImm x nn)
  | 0x5 => strictNibble strict n (.seReg x y n)
  | 0x6 => some (.ldImm x nn)
  | 0x7 => some (.addImm x nn)
  | 0x8 => decodeCat8 x y n
  | 0x9 => strictNibble strict n (.sneReg x y n)
  | 0xA => some (.ldI nnn)
  | 0xB => some (.jpV0 nnn)
  | 0xC => some (.rnd x nn)
  | 0xD => some (.drw x y n)
  | 0xE => decodeCatE x nn
  | 0xF => decodeCatF x nn
  | _ => none

/-- `Decode(op)` (R83), total on words: an operation, or the word rejected as `InvalidOpcode` (R87, R88, R89). -/
def decode (strict : Bool) (op : Word) : Decoded :=
  match decodeCategory strict op with
  | some i => .instr i
  | none => .invalidOpcode op

/-! ### Bytes (R55, R80) -/

/-- `(b0 << 8) | b1`: the byte at the lower address is the high byte (R55). -/
def wordOfBytes (b0 b1 : Byte) : Word := b0 ++ b1

/-- The byte of an opcode that lies at the lower address (R55). -/
def highByte (op : Word) : Byte := op.extractLsb' 8 8

/-- The byte of an opcode that lies at the higher address (R55). -/
def lowByte (op : Word) : Byte := op.extractLsb' 0 8

/-- What decoding a stream of bytes gives: an instruction and the bytes after it, the word rejected, or a stream that
ends inside the word. -/
inductive DecodedBytes where
  | instr (i : Instr) (rest : List Byte)
  | invalidOpcode (op : Word)
  | truncated
  deriving DecidableEq, Repr

/-- Decoding a raw byte stream, "interpreted as big-endian 16-bit opcodes" (R55, R80); total on any bytes. -/
def decodeBytes (strict : Bool) : List Byte → DecodedBytes
  | b0 :: b1 :: rest =>
    match decode strict (wordOfBytes b0 b1) with
    | .instr i => .instr i rest
    | .invalidOpcode op => .invalidOpcode op
  | _ => .truncated

/-! ### The encoder (R81, R84) -/

/-- The word of an instruction: its row's fixed bits with its operands in the fields of R81. -/
def encode : Instr → Word
  | .cls => 0x00E0#16
  | .ret => 0x00EE#16
  | .jp nnn => 0x1#4 ++ nnn
  | .call nnn => 0x2#4 ++ nnn
  | .seImm x nn => 0x3#4 ++ x ++ nn
  | .sneImm x nn => 0x4#4 ++ x ++ nn
  | .seReg x y n => 0x5#4 ++ x ++ y ++ n
  | .ldImm x nn => 0x6#4 ++ x ++ nn
  | .addImm x nn => 0x7#4 ++ x ++ nn
  | .ldReg x y => 0x8#4 ++ x ++ y ++ 0x0#4
  | .orReg x y => 0x8#4 ++ x ++ y ++ 0x1#4
  | .andReg x y => 0x8#4 ++ x ++ y ++ 0x2#4
  | .xorReg x y => 0x8#4 ++ x ++ y ++ 0x3#4
  | .addReg x y => 0x8#4 ++ x ++ y ++ 0x4#4
  | .sub x y => 0x8#4 ++ x ++ y ++ 0x5#4
  | .shr x y => 0x8#4 ++ x ++ y ++ 0x6#4
  | .subn x y => 0x8#4 ++ x ++ y ++ 0x7#4
  | .shl x y => 0x8#4 ++ x ++ y ++ 0xE#4
  | .sneReg x y n => 0x9#4 ++ x ++ y ++ n
  | .ldI nnn => 0xA#4 ++ nnn
  | .jpV0 nnn => 0xB#4 ++ nnn
  | .rnd x nn => 0xC#4 ++ x ++ nn
  | .drw x y n => 0xD#4 ++ x ++ y ++ n
  | .skp x => 0xE#4 ++ x ++ 0x9E#8
  | .sknp x => 0xE#4 ++ x ++ 0xA1#8
  | .ldVxDT x => 0xF#4 ++ x ++ 0x07#8
  | .ldVxK x => 0xF#4 ++ x ++ 0x0A#8
  | .ldDTVx x => 0xF#4 ++ x ++ 0x15#8
  | .ldSTVx x => 0xF#4 ++ x ++ 0x18#8
  | .addI x => 0xF#4 ++ x ++ 0x1E#8
  | .ldF x => 0xF#4 ++ x ++ 0x29#8
  | .ldB x => 0xF#4 ++ x ++ 0x33#8
  | .storeRegs x => 0xF#4 ++ x ++ 0x55#8
  | .loadRegs x => 0xF#4 ++ x ++ 0x65#8

/-- The bytes of an instruction in address order (R55). -/
def encodeBytes (i : Instr) : List Byte := [highByte (encode i), lowByte (encode i)]

/-! ### The opcode map as the spec writes it (R84) -/

/-- One row of R84: its number, its mask and its match value. -/
structure OpcodeRow where
  num : Nat
  mask : Word
  value : Word
  deriving DecidableEq, Repr

/-- A word matches a row when `op & mask = match` (R84). -/
def OpcodeRow.matchesWord (r : OpcodeRow) (op : Word) : Bool := op &&& r.mask == r.value

/-- The mask of rows 7 and 19 (R86). -/
def skipMask (strict : Bool) : Word := if strict then 0xF00F#16 else 0xF000#16

/-- The rows of R84, with the masks of rows 7 and 19 as `STRICT_5_9` sets them (R86). The decoder does not read this
table: statements hold the two against each other. -/
def opcodeRows (strict : Bool) : List OpcodeRow :=
  [ ⟨1, 0xFFFF#16, 0x00E0#16⟩, ⟨2, 0xFFFF#16, 0x00EE#16⟩, ⟨3, 0xF000#16, 0x1000#16⟩, ⟨4, 0xF000#16, 0x2000#16⟩,
    ⟨5, 0xF000#16, 0x3000#16⟩, ⟨6, 0xF000#16, 0x4000#16⟩, ⟨7, skipMask strict, 0x5000#16⟩, ⟨8, 0xF000#16, 0x6000#16⟩,
    ⟨9, 0xF000#16, 0x7000#16⟩ ] ++
  [ ⟨10, 0xF00F#16, 0x8000#16⟩, ⟨11, 0xF00F#16, 0x8001#16⟩, ⟨12, 0xF00F#16, 0x8002#16⟩, ⟨13, 0xF00F#16, 0x8003#16⟩,
    ⟨14, 0xF00F#16, 0x8004#16⟩, ⟨15, 0xF00F#16, 0x8005#16⟩, ⟨16, 0xF00F#16, 0x8006#16⟩, ⟨17, 0xF00F#16, 0x8007#16⟩,
    ⟨18, 0xF00F#16, 0x800E#16⟩ ] ++
  [ ⟨19, skipMask strict, 0x9000#16⟩, ⟨20, 0xF000#16, 0xA000#16⟩, ⟨21, 0xF000#16, 0xB000#16⟩, ⟨22, 0xF000#16, 0xC000#16⟩,
    ⟨23, 0xF000#16, 0xD000#16⟩, ⟨24, 0xF0FF#16, 0xE09E#16⟩, ⟨25, 0xF0FF#16, 0xE0A1#16⟩ ] ++
  [ ⟨26, 0xF0FF#16, 0xF007#16⟩, ⟨27, 0xF0FF#16, 0xF00A#16⟩, ⟨28, 0xF0FF#16, 0xF015#16⟩, ⟨29, 0xF0FF#16, 0xF018#16⟩,
    ⟨30, 0xF0FF#16, 0xF01E#16⟩, ⟨31, 0xF0FF#16, 0xF029#16⟩, ⟨32, 0xF0FF#16, 0xF033#16⟩, ⟨33, 0xF0FF#16, 0xF055#16⟩,
    ⟨34, 0xF0FF#16, 0xF065#16⟩ ]

/-! ### The host's entry point -/

/-- The opcode whose bits are w, numbered as spec/opcode_table.json numbers them: every row has 16 bits, bit 0 the least
significant bit of the one word; bits above nbits are 0. -/
def tableWord (nbits w : Nat) : Word := BitVec.ofNat 16 (w % 2 ^ nbits)

/-- The instruction the decoder reads from the bytes of the word w, laid out as the hardware stores them (R55), for the
reference instance (`STRICT_5_9` = false, R14). -/
def decodeTableWord (nbits w : Nat) : Option Instr :=
  match decodeBytes false [highByte (tableWord nbits w), lowByte (tableWord nbits w)] with
  | .instr i _ => some i
  | .invalidOpcode _ => none
  | .truncated => none

end Sys2Proof
end

