-- ==== Sys2Proof/Config.lean ====
section
/-! DEFINITION. What an instance of the hardware fixes, and the free values the spec leaves open.

Every parameter of 00_scope.md section 4 is a field of `Params` ("A model takes each parameter below as an argument").
State holds one `Params`, which no operation changes, so a statement about every state is a statement about every
instance. This hardware's values are `referenceParams` (Machine/Constants.lean). -/

namespace Sys2Proof

/-- The parameters of an instance (R7-R12, R14). `stackDepth` is any natural number, 0 among them, or `none` for
`unbounded`: DESIGN CHOICE (log 12), because R12 says "a natural number" where 92 D2 and 93 U9 say "a positive integer".
With 0 every 2NNN overflows. -/
structure Params where
  /-- `MEM_CAPACITY` (R7). -/
  memCapacity : Nat
  /-- `PROGRAM_OFFSET` (R8). -/
  programOffset : Nat
  /-- `FONT_BASE` (R9). -/
  fontBase : Nat
  /-- `GLYPH_COUNT` (R9). -/
  glyphCount : Nat
  /-- `GLYPH_SIZE` (R9). -/
  glyphSize : Nat
  /-- `FONT_TABLE` (R10): row r of glyph d is byte `GLYPH_SIZE`·d + r (R59). -/
  fontTable : List Byte
  /-- `FB_WIDTH` (R11). -/
  fbWidth : Nat
  /-- `FB_HEIGHT` (R11). -/
  fbHeight : Nat
  /-- `STACK_DEPTH` (R12). -/
  stackDepth : Option Nat
  /-- `STRICT_5_9` (R14). -/
  strict59 : Bool
  deriving DecidableEq, Repr

/-- What the host may do at any time of a run (10_state.md R37, R39, 60_exceptions.md R242). -/
inductive RunOp where
  /-- STEP. -/
  | step
  /-- TICK. -/
  | tick
  /-- The keyboard state becomes this one. -/
  | setKeys (keys : Vector Bool 16)
  deriving DecidableEq, Repr, Inhabited

/-- FREE VALUE: the byte the random port returns at draw number n when the host supplied none (10_state.md R38,
93_implementation_defined.md U6: any value, drawn per CXNN). Log 7. -/
opaque Config.rndByte : Nat → Byte

/-- FREE VALUE: which of several pressed keys `Key.any()` answers with at draw number n (10_state.md R37,
93_implementation_defined.md U5: any of the pressed keys, drawn per FX0A). It is reduced modulo their count. Log 8. -/
opaque Config.keyChoice : Nat → Nat

/-- FREE VALUE: operation number n of a host that does as it likes (60_exceptions.md R242: "Any finite or infinite
sequence of STEP and TICK operations is a possible run"; 93_implementation_defined.md U7, U8). Log 6. -/
opaque Config.hostOp : Nat → RunOp

end Sys2Proof
end

