-- ==== Sys2Proof/Machine/Constants.lean ====
section
/-! DEFINITION. This hardware's parameter values (00_scope.md section 4) and which parameter values are an instance. The spec
calls the numbers unaudited (log 13); the font's byte values are general knowledge (20_memory.md R59, log 4). -/

namespace Sys2Proof.Machine

/-- `FONT_TABLE` (R10) at the value 20_memory.md R59 takes, glyph 0 first, five rows a glyph (log 4). -/
def fontTable : List Byte :=
  [0xF0#8, 0x90#8, 0x90#8, 0x90#8, 0xF0#8,  0x20#8, 0x60#8, 0x20#8, 0x20#8, 0x70#8,
   0xF0#8, 0x10#8, 0xF0#8, 0x80#8, 0xF0#8,  0xF0#8, 0x10#8, 0xF0#8, 0x10#8, 0xF0#8] ++
  [0x90#8, 0x90#8, 0xF0#8, 0x10#8, 0x10#8,  0xF0#8, 0x80#8, 0xF0#8, 0x10#8, 0xF0#8,
   0xF0#8, 0x80#8, 0xF0#8, 0x90#8, 0xF0#8,  0xF0#8, 0x10#8, 0x20#8, 0x40#8, 0x40#8] ++
  [0xF0#8, 0x90#8, 0xF0#8, 0x90#8, 0xF0#8,  0xF0#8, 0x90#8, 0xF0#8, 0x10#8, 0xF0#8,
   0xF0#8, 0x90#8, 0xF0#8, 0x90#8, 0x90#8,  0xE0#8, 0x90#8, 0xE0#8, 0x90#8, 0xE0#8] ++
  [0xF0#8, 0x80#8, 0x80#8, 0x80#8, 0xF0#8,  0xE0#8, 0x90#8, 0x90#8, 0x90#8, 0xE0#8,
   0xF0#8, 0x80#8, 0xF0#8, 0x80#8, 0xF0#8,  0xF0#8, 0x80#8, 0xF0#8, 0x80#8, 0x80#8]

/-- This hardware: the value column of 00_scope.md section 4, with the reference values of the parameters it leaves open
(an unbounded stack, R12; the low nibble of 5XYN and 9XYN ignored, R14, R86; R59's font). -/
def referenceParams : Params where
  memCapacity := 4095
  programOffset := 0x200
  fontBase := 0x50
  glyphCount := 16
  glyphSize := 5
  fontTable := fontTable
  fbWidth := 64
  fbHeight := 32
  stackDepth := none
  strict59 := false

/-- The font table has the shape the source fixes (R10, 20_memory.md R59): `GLYPH_COUNT` × `GLYPH_SIZE` bytes, each with its
row in the top nibble, bits 3 to 0 equal to 0. -/
abbrev fontShape (p : Params) : Prop :=
  p.fontTable.length = p.glyphCount * p.glyphSize ∧ ∀ b ∈ p.fontTable, b.extractLsb' 0 4 = 0x0#4

/-- The parameter values that are an instance (log 22): the font table has its shape; there is a glyph for each of the 16
nibbles (20_memory.md R60); the font region lies in memory (R58) and its addresses in the range of I (10_state.md R23); a
program has room for one word; and a signed 16-bit PC holds every address a step can leave (R24, R27). `STACK_DEPTH`,
`STRICT_5_9` and the framebuffer's size may be anything. -/
abbrev paramsWf (p : Params) : Prop :=
  fontShape p ∧ 16 ≤ p.glyphCount ∧ 1 ≤ p.glyphSize ∧ p.fontBase + p.glyphCount * p.glyphSize ≤ p.memCapacity ∧
    p.fontBase + 15 * p.glyphSize ≤ 0xFFF ∧ p.programOffset + 2 ≤ p.memCapacity ∧ p.memCapacity + 2 ≤ 0x7FFF

end Sys2Proof.Machine
end

