-- ==== Sys2Proof/Machine/State.lean ====
section
/-! DEFINITION. The state of the block (10_state.md R20-R33), its ports (R37, R38), its outputs (R33, R39), the host's
operations (R39) and the state after reset (70_reset_and_hazards.md R260, R261). Everything is plain data. -/

namespace Sys2Proof.Machine

/-- The byte memory (R31): a list of (address, byte) pairs, addresses rising, holding only the bytes that differ from
what an unlisted address reads as (`blankByte`, Machine/Memory.lean). -/
abbrev Memory := List Host.Cell

/-- The framebuffer (R30): the rows from the top, each its pixels from the left. It has the instance's shape (`FB_HEIGHT` rows
of `FB_WIDTH` pixels, `Framebuffer.wf` in Machine/Framebuffer.lean), which the invariant says. -/
abbrev Framebuffer := List (List Bool)

/-- The error outcomes of a STEP (60_exceptions.md R220). -/
inductive ErrorCode where
  /-- Code 1: the fetched word matches no row of the opcode map. -/
  | invalidOpcode
  /-- Code 2: 00EE with an empty call stack. -/
  | stackUnderflow
  /-- Code 3: 2NNN with a full call stack of finite depth. -/
  | stackOverflow
  /-- Code 4: a byte address below 0 or at or above `MEM_CAPACITY`. -/
  | outOfBoundsAccess
  deriving DecidableEq, Repr

/-- What a fault records (R222): the code, the address P the STEP fetched from, the fetched word (`none` when the fault
was in the fetch), the out-of-bounds address, the stack depth. -/
structure FaultRecord where
  code : ErrorCode
  pc : Word
  opcode : Option Word
  addr : Option Int
  depth : Option Nat
  deriving DecidableEq, Repr

/-- RESULT, the output of a STEP (R222). -/
inductive StepResult where
  | ok
  | err (r : FaultRecord)
  deriving DecidableEq, Repr

/-- The values RESET leaves unspecified, taken as launch inputs (70_reset_and_hazards.md R260, 93 U1-U4): V0-VF, I in
0 to 0xFFF, DT, ST, and any bytes of memory (an address the list does not name reads as `blankByte`). -/
structure Launch where
  v : Vector Byte 16
  i : Addr12
  dt : Byte
  st : Byte
  mem : List Host.Cell
  deriving DecidableEq, Repr

/-- What the host does to the block, one operation at a time (10_state.md R39, R65; the keyboard state changes only
between operations, R37, 70_reset_and_hazards.md R262). -/
inductive HostOp where
  /-- STEP: run one instruction (30_encoding.md R95). -/
  | step
  /-- TICK: decrement both timers (60_exceptions.md R240). -/
  | tick
  /-- The keyboard state becomes this one (R37). -/
  | setKeys (keys : Vector Bool 16)
  /-- LOAD: write the ROM image (20_memory.md R61). -/
  | load (rom : List Byte)
  /-- RESET, with the values it leaves unspecified (70_reset_and_hazards.md R260). -/
  | reset (l : Launch)
  deriving DecidableEq, Repr

/-- What the host does after the operations it has scheduled (60_exceptions.md R242; log 6). -/
inductive HostRest where
  /-- These operations over and over, for ever. -/
  | repeats (op : HostOp) (ops : List HostOp)
  /-- Whatever it likes, for ever: the free values `Config.hostOp` n, n + 1, … -/
  | free (n : Nat)
  deriving DecidableEq, Repr

/-- An operation of a run as an operation of the host. -/
def HostOp.ofRun : RunOp → HostOp
  | .step => .step
  | .tick => .tick
  | .setKeys keys => .setKeys keys

/-- The state. The first group is the spec's State tuple, the second its outputs and ports, the third the model's own. -/
structure State where
  /-- V0 to VF (R20); register 15 is also the flag (R21). -/
  v : Vector Byte 16
  /-- The index register, 16 bits, value 0 to 0xFFF (R23). -/
  i : Word
  /-- The program counter, a signed 16-bit register (R24), in two's complement (log 14). -/
  pc : Word
  /-- The call stack, the most recently pushed entry last (R28). -/
  stack : List Word
  /-- The delay timer (R29). -/
  dt : Byte
  /-- The sound timer (R29). -/
  st : Byte
  /-- The framebuffer (R30). -/
  fb : Framebuffer
  /-- The byte memory (R31). -/
  mem : Memory
  /-- The fault latch (R32). -/
  fault : Option FaultRecord
  /-- SOUND_EDGE, the output of the latest TICK (R33). -/
  soundEdge : Bool
  /-- ROM_WARN, the output of the latest LOAD (R39, R61). -/
  romWarn : Bool
  /-- The KEY port: which of the 16 keys are pressed (R37, log 9). -/
  keys : Vector Bool 16
  /-- The RND port: the bytes the host supplies, next first; a free value follows them (R38, log 7). -/
  rnd : List Byte
  /-- The instance's parameters (R7-R12, R14, log 12); no operation changes them. -/
  params : Params
  /-- The model's own: the operations the host will issue, next first (log 6). -/
  schedule : List HostOp
  /-- The model's own: what the host issues after those (log 6). -/
  later : HostRest
  /-- The model's own: LOAD may still be issued (R61, R262, log 10). -/
  romOpen : Bool
  /-- The model's own: the index of the next free value (log 7, log 8). -/
  draws : Nat
  deriving DecidableEq, Repr

/-- Why the machine would stop with a fault: NO reason. Every error the spec names ends its STEP in a next state with
the fault latch set (R223, R224; log 1), so this type has no constructor. -/
inductive Fault where
  deriving DecidableEq, Repr

/-- Why the machine has no transition. -/
inductive Refusal where
  /-- Raised by a refused arm of `exec` only: the instruction has no meaning yet. Safe: nothing is claimed of it. -/
  | notModelled (mnemonic : String)
  /-- Raised by the host's LOAD when one was issued since RESET or a STEP has begun (20_memory.md R61, R70;
  93_implementation_defined.md U23: "refuse: the model has no transition"). No instruction raises it. Safe: the model
  has no transition where the spec gives none (log 10). -/
  | loadOutOfOrder
  deriving DecidableEq, Repr

/-- Every pixel false (44_display.md R160). -/
def clearFramebuffer (p : Params) : Framebuffer := List.replicate p.fbHeight (List.replicate p.fbWidth false)

/-- The machine right after RESET (R260, R261), for the reference instance. The spec leaves V, I, DT, ST and the memory
outside the font unspecified: this state has them 0 (log 2, log 3). No ROM is loaded, and the host issues STEPs (log 6). -/
def State.reset : State where
  v := Vector.replicate 16 0#8
  i := 0#16
  pc := BitVec.ofNat 16 referenceParams.programOffset
  stack := []
  dt := 0#8
  st := 0#8
  fb := clearFramebuffer referenceParams
  mem := []
  fault := none
  soundEdge := false
  romWarn := false
  keys := Vector.replicate 16 false
  rnd := []
  params := referenceParams
  schedule := []
  later := .repeats .step []
  romOpen := true
  draws := 0

end Sys2Proof.Machine
end

