-- ==== Sys2Proof/Machine/Framebuffer.lean ====
section
/-! DEFINITION. The framebuffer engine: reading and writing one pixel (10_state.md R30, R40) and the sprite-row primitive
`DrawByte` (44_display.md R162). -/

namespace Sys2Proof.Machine

/-- The framebuffer is a grid of `FB_WIDTH` × `FB_HEIGHT` pixels (R30, 00_scope.md R11). -/
abbrev Framebuffer.wf (p : Params) (fb : Framebuffer) : Prop :=
  fb.length = p.fbHeight ∧ ∀ row ∈ fb, row.length = p.fbWidth

/-- `FB[x][y]`; a position outside the grid is no pixel and reads false. -/
def Framebuffer.pixel (fb : Framebuffer) (x y : Nat) : Bool := (fb.getD y []).getD x false

/-- The framebuffer with one pixel set to a value; a position outside the grid is no pixel. -/
def Framebuffer.setPixel (fb : Framebuffer) (x y : Nat) (v : Bool) : Framebuffer :=
  fb.set y ((fb.getD y []).set x v)

/-- Column i of `DrawByte`'s loop (R162): where the sprite bit is 1 the pixel is toggled, and a set pixel that is cleared
is a collision; where it is 0 nothing changes. -/
def drawBit (x y : Nat) (b : Byte) (i : Nat) (fc : Framebuffer × Bool) : Framebuffer × Bool :=
  if b.getLsbD (7 - i) then
    if fc.1.pixel (x + i) y then (fc.1.setPixel (x + i) y false, true)
    else (fc.1.setPixel (x + i) y true, fc.2)
  else fc

/-- `for i in k .. k + n - 1`, ascending. -/
def countUp {α : Type} (body : Nat → α → α) : Nat → Nat → α → α
  | _, 0, a => a
  | k, n + 1, a => countUp body (k + 1) n (body k a)

/-- `DrawByte(x, y, b)` (R162): the new framebuffer, and whether a pixel went from set to clear. A row at or beyond
`FB_HEIGHT` is dropped; `FB_WIDTH - x` is 0 where x is at or beyond `FB_WIDTH`, so no column is drawn. -/
def drawByte (p : Params) (fb : Framebuffer) (x y : Nat) (b : Byte) : Framebuffer × Bool :=
  if p.fbHeight ≤ y then (fb, false)
  else countUp (drawBit x y b) 0 (min 8 (p.fbWidth - x)) (fb, false)

end Sys2Proof.Machine
end

