-- ==== Sys2Proof/Machine/Memory.lean ====
section
/-! DEFINITION. The byte memory as a sorted list (20_memory.md R50, R58): what an unlisted address reads as, reading and
writing one byte, and the canonical form, for an instance with parameters p. Bounds are checked by the primitives of Machine/Ops.lean. -/

namespace Sys2Proof.Machine

/-- What an address nothing has written reads as: the font table at `FONT_BASE` (R58, R59), elsewhere 0 (the spec leaves
it unspecified; log 3). -/
def blankByte (p : Params) (a : Nat) : Byte :=
  if p.fontBase ≤ a then p.fontTable.getD (a - p.fontBase) 0#8 else 0#8

/-- The byte at an address. -/
def Memory.get (p : Params) : Memory → Nat → Byte
  | [], a => blankByte p a
  | (k, b) :: m, a => if a = k then b else Memory.get p m a

/-- A cell in front of a memory whose addresses all lie above it, left out when it holds what a blank address reads. -/
def Memory.cons (p : Params) (a : Nat) (b : Byte) (m : Memory) : Memory :=
  if b = blankByte p a then m else (a, b) :: m

/-- The memory after writing one byte, canonical again. -/
def Memory.set (p : Params) : Memory → Nat → Byte → Memory
  | [], a, b => Memory.cons p a b []
  | (k, c) :: m, a, b =>
    if a < k then Memory.cons p a b ((k, c) :: m)
    else if a = k then Memory.cons p a b m
    else (k, c) :: Memory.set p m a b

/-- The canonical form: addresses strictly rising, all inside the memory, no entry equal to what an unlisted address
reads as. -/
abbrev Memory.wf (p : Params) (m : Memory) : Prop :=
  m.Pairwise (fun c d => c.1 < d.1) ∧ ∀ c ∈ m, c.1 < p.memCapacity ∧ c.2 ≠ blankByte p c.1

/-- Writing consecutive bytes from an address upward; a byte at or above `MEM_CAPACITY` is not written (R61). -/
def Memory.setRun (p : Params) : Memory → Nat → List Byte → Memory
  | m, _, [] => m
  | m, a, b :: bs => Memory.setRun p (if a < p.memCapacity then Memory.set p m a b else m) (a + 1) bs

/-- The memory that holds the given cells (a later cell of one address wins); a cell outside the memory is none of its
bytes. -/
def Memory.ofCells (p : Params) : Memory → List Host.Cell → Memory
  | m, [] => m
  | m, c :: cs => Memory.ofCells p (if c.1 < p.memCapacity then Memory.set p m c.1 c.2 else m) cs

end Sys2Proof.Machine
end

