-- ==== Sys2Proof/Machine/Ops.lean ====
section
/-! DEFINITION. The shared operations the meanings are written over: registers, bounds-checked memory, the call stack,
the ports, fetching, and raising an error (00_scope.md R16's primitives). -/

namespace Sys2Proof.Machine

/-! ### Registers (10_state.md R20) -/

/-- `V[x]`. -/
def State.getV (s : State) (x : Nibble) : Byte := s.v[x.toNat]'x.isLt

/-- `V[x] <- b`. -/
def State.setV (s : State) (x : Nibble) (b : Byte) : State := { s with v := s.v.set x.toNat b x.isLt }

/-- `I <- a`. -/
def State.setI (s : State) (a : Word) : State := { s with i := a }

/-- `DT <- b`. -/
def State.setDt (s : State) (b : Byte) : State := { s with dt := b }

/-- `ST <- b`. -/
def State.setSt (s : State) (b : Byte) : State := { s with st := b }

/-- `FB <- fb`. -/
def State.setFb (s : State) (fb : Framebuffer) : State := { s with fb := fb }

/-- Register 15, the flag register (R21). -/
def flagReg : Nibble := 0xF#4

/-! ### Raising an error (60_exceptions.md R222, R223)

There is no vector, handler or saved mode: raising sets the fault latch, and the STEP ends in the state it had reached.
There is no return from it either: only RESET clears the latch (R224; Machine/HostOps.lean). -/

/-- `raise E(info)` (R223): the latch holds the record, nothing else changes. -/
def State.raise (s : State) (r : FaultRecord) : State := { s with fault := some r }

/-- P, the address the running instruction was fetched from: PC holds P + 2 while it runs (10_state.md R24). -/
def State.fetchedFrom (s : State) : Word := s.pc - 2#16

/-- An error an instruction raises, with the word `op` it was fetched as: `pc` is P, not the advanced PC (R222). -/
def State.raiseIn (s : State) (op : Word) (code : ErrorCode) (addr : Option Int) (depth : Option Nat) : State :=
  s.raise { code := code, pc := s.fetchedFrom, opcode := some op, addr := addr, depth := depth }

/-- RESULT after a STEP (R222, R32): the latch as the host reads it. -/
def State.result (s : State) : StepResult :=
  match s.fault with
  | none => .ok
  | some r => .err r

/-- The numeric code of an error (R220). -/
def ErrorCode.num : ErrorCode → Nat
  | .invalidOpcode => 1
  | .stackUnderflow => 2
  | .stackOverflow => 3
  | .outOfBoundsAccess => 4

/-- The numeric code of a RESULT: 0 is OK (R220). -/
def StepResult.num : StepResult → Nat
  | .ok => 0
  | .err r => r.code.num

/-! ### Memory (20_memory.md R51, R52) -/

/-- A byte address of the memory: an integer from 0 to `MEM_CAPACITY` - 1, never wrapped (R51, R53). -/
abbrev validAddr (p : Params) (a : Int) : Prop := 0 ≤ a ∧ a < (p.memCapacity : Int)

/-- The bounds check of R51 and R52: fails if a < 0 or a ≥ `MEM_CAPACITY`. -/
def inBounds (p : Params) : Int → Bool
  | .ofNat n => decide (n < p.memCapacity)
  | .negSucc _ => false

/-- `mem <- m`. -/
def State.setMem (s : State) (m : Memory) : State := { s with mem := m }

/-- `MemRead(a, 1)` (R51); `none` is its `OutOfBoundsAccess(addr = a)`. -/
def State.memRead (s : State) (a : Int) : Option Byte :=
  if inBounds s.params a then some (Memory.get s.params s.mem a.toNat) else none

/-- `MemWrite(a, 1, b)` (R52); `none` is its `OutOfBoundsAccess(addr = a)`. -/
def State.memWrite (s : State) (a : Int) (b : Byte) : Option State :=
  if inBounds s.params a then some (s.setMem (Memory.set s.params s.mem a.toNat b)) else none

/-! ### A sequence of byte accesses (R54) -/

/-- Where a sequence of accesses stands: it went on with `a`, or the access at `addr` was out of bounds and `a` is what
had been done before it (R223: "These partial effects are not undone"). -/
inductive Access (α : Type) where
  | ok (a : α)
  | outOfBounds (a : α) (addr : Int)
  deriving DecidableEq, Repr

/-- `for k in k0 .. k0 + n - 1`, ascending, ended by the first access out of bounds (R54, R225). -/
def accessUp {α : Type} (body : Nat → α → Access α) : Nat → Nat → α → Access α
  | _, 0, a => .ok a
  | k, n + 1, a =>
    match body k a with
    | .ok a' => accessUp body (k + 1) n a'
    | .outOfBounds a' addr => .outOfBounds a' addr

/-- The state an instruction with word `op` ends in after its accesses: as they left it, with `OutOfBoundsAccess` raised
if one of them was out of bounds (R221, R223). -/
def settle (op : Word) : Access State → State
  | .ok s => s
  | .outOfBounds s addr => s.raiseIn op .outOfBoundsAccess (some addr) none

/-! ### The call stack (R62, R63) -/

/-- The stack holds `STACK_DEPTH` entries, a finite number (R62). -/
def State.stackFull (s : State) : Bool :=
  match s.params.stackDepth with
  | none => false
  | some d => s.stack.length == d

/-- `Push(v)` (R62); `none` is its `StackOverflow`. -/
def State.push (s : State) (a : Word) : Option State :=
  if s.stackFull then none else some { s with stack := s.stack ++ [a] }

/-- `Pop()` (R63): the entry pushed last and the state without it; `none` is its `StackUnderflow`. -/
def State.pop (s : State) : Option (Word × State) :=
  match s.stack.getLast? with
  | none => none
  | some a => some (a, { s with stack := s.stack.dropLast })

/-! ### Control flow (40_control_flow.md R100) -/

/-- `PC <- target`. -/
def State.setPc (s : State) (target : Word) : State := { s with pc := target }

/-- `if p: SkipNext()` (R100). -/
def State.skipIf (s : State) (p : Bool) : State := if p then s.setPc (s.pc + 2#16) else s

/-! ### Ports (10_state.md R37, R38) -/

/-- `Key.pressed(k)` (R37). -/
def State.keyPressed (s : State) (k : Nibble) : Bool := s.keys[k.toNat]'k.isLt

/-- The sixteen key numbers. -/
def allKeys : List Nibble := (List.range 16).map (BitVec.ofNat 4)

/-- The keys now pressed, lowest number first. -/
def State.pressedKeys (s : State) : List Nibble := allKeys.filter s.keyPressed

/-- `Key.any()` (R37): no key, the one pressed key, or of several pressed keys the one a fresh free value picks (log 8). -/
def State.keyAny (s : State) : Option Nibble × State :=
  match s.pressedKeys with
  | [] => (none, s)
  | [k] => (some k, s)
  | k :: ks => (some ((k :: ks).getD (Config.keyChoice s.draws % (k :: ks).length) k), { s with draws := s.draws + 1 })

/-- `Rnd()` (R38): the next byte the host supplied, or a fresh free value (log 7). -/
def State.rndNext (s : State) : Byte × State :=
  match s.rnd with
  | b :: bs => (b, { s with rnd := bs })
  | [] => (Config.rndByte s.draws, { s with draws := s.draws + 1 })

/-! ### The host's order (20_memory.md R65, 60_exceptions.md R242) -/

/-- The host's next operation, and the state with it issued: the first of the schedule; where the schedule is at its end,
the first of the operations that repeat, the others scheduled after it, or a free value (log 6). -/
def State.nextOp (s : State) : HostOp × State :=
  match s.schedule with
  | op :: ops => (op, { s with schedule := ops })
  | [] =>
    match s.later with
    | .repeats op ops => (op, { s with schedule := ops })
    | .free n => (.ofRun (Config.hostOp n), { s with later := .free (n + 1) })

/-! ### Fetching (30_encoding.md R95, 20_memory.md R55) -/

/-- A fetch gives the opcode, or `OutOfBoundsAccess` at an address (R95). -/
inductive Fetched where
  | word (op : Word)
  | outOfBounds (addr : Int)
  deriving DecidableEq, Repr

/-- The two byte reads of a fetch, first at PC, then at PC + 1, high byte first (R54, R55, R95). PC is signed (R24). -/
def State.fetch (s : State) : Fetched :=
  match s.memRead s.pc.toInt with
  | none => .outOfBounds s.pc.toInt
  | some b0 =>
    match s.memRead (s.pc.toInt + 1) with
    | none => .outOfBounds (s.pc.toInt + 1)
    | some b1 => .word (wordOfBytes b0 b1)

/-- `OutOfBoundsAccess` in the fetch: no opcode is recorded and PC was not advanced (R222, R95). -/
def State.raiseInFetch (s : State) (addr : Int) : State :=
  s.raise { code := .outOfBoundsAccess, pc := s.pc, opcode := none, addr := some addr, depth := none }

/-- A STEP has begun: LOAD is over until the next RESET (R61, R70; log 10). -/
def State.closeRom (s : State) : State := { s with romOpen := false }

/-- `PC <- P + 2`, before dispatch (R95). -/
def State.advance (s : State) : State := s.setPc (s.pc + 2#16)

/-- PC where a fetch succeeds: its own value if both bytes exist, else the program's start (log 19). -/
def State.fetchablePc (s : State) : Word :=
  if inBounds s.params s.pc.toInt && inBounds s.params (s.pc.toInt + 1) then s.pc
  else BitVec.ofNat 16 s.params.programOffset

/-- The state whose next operation is a STEP that fetches the word `op`: the word's two bytes at PC, the latch clear, a
STEP next in the schedule (log 19). -/
def State.placeWord (s : State) (op : Word) : State :=
  let p := s.fetchablePc
  { s with
    pc := p
    mem := Memory.set s.params (Memory.set s.params s.mem p.toNat (highByte op)) (p.toNat + 1) (lowByte op)
    fault := none
    schedule := match s.schedule, s.later with
      | [], .repeats .step _ => []
      | .step :: ops, _ => .step :: ops
      | ops, _ => .step :: ops }

end Sys2Proof.Machine
end

