-- ==== Sys2Proof/Machine/Operands.lean ====
section
/-! DEFINITION. The operand forms: the address I + k (46_memory_ops.md), a key number (45_keyboard_timers.md R180), the
font address (20_memory.md R60) and the decimal digits (46_memory_ops.md R201). Register and immediate operands are the
fields themselves, unsigned (30_encoding.md R82). -/

namespace Sys2Proof.Machine

/-- The address I + k: an integer sum, not wrapped and not taken modulo 4096 (20_memory.md R53). -/
def State.indexed (s : State) (k : Nat) : Int := (s.i.toNat : Int) + k

/-- The low nibble of a byte. -/
def lowNibble (b : Byte) : Nibble := b.extractLsb' 0 4

/-- A key number is the low nibble of a register (R180). -/
def keyNumber (b : Byte) : Nibble := lowNibble b

/-- `FontAddr(n)` (R60): `FONT_BASE + (n & 0xF) * GLYPH_SIZE`. -/
def fontAddr (p : Params) (n : Nibble) : Word := BitVec.ofNat 16 (p.fontBase + n.toNat * p.glyphSize)

/-- `v / 100` (R201). -/
def hundreds (b : Byte) : Byte := BitVec.ofNat 8 (b.toNat / 100)

/-- `(v / 10) % 10` (R201). -/
def tens (b : Byte) : Byte := BitVec.ofNat 8 (b.toNat / 10 % 10)

/-- `v % 10` (R201). -/
def units (b : Byte) : Byte := BitVec.ofNat 8 (b.toNat % 10)

/-- The digit written at I + k (R201): hundreds, tens, units. -/
def bcdDigit (b : Byte) : Nat → Byte
  | 0 => hundreds b
  | 1 => tens b
  | _ => units b

/-- A 12-bit address as a 16-bit value, zero-extended (R82). -/
def zext16 (a : Addr12) : Word := a.setWidth 16

/-- `MemWrite(I + k, 1, b)`. -/
def State.storeAt (s : State) (k : Nat) (b : Byte) : Access State :=
  match s.memWrite (s.indexed k) b with
  | some t => .ok t
  | none => .outOfBounds s (s.indexed k)

/-- `V[k] <- MemRead(I + k, 1)`. -/
def State.loadAt (s : State) (k : Nat) : Access State :=
  match s.memRead (s.indexed k) with
  | some b => .ok (s.setV (BitVec.ofNat 4 k) b)
  | none => .outOfBounds s (s.indexed k)

end Sys2Proof.Machine
end

