-- ==== Sys2Proof/Machine/Flags.lean ====
section
/-! DEFINITION. The flag computations (42_register_alu.md R135-R139): the one flag is VF (10_state.md R21, R34). -/

namespace Sys2Proof.Machine

/-- A flag as a byte: 1 or 0. -/
def flagByte (f : Bool) : Byte := if f then 1#8 else 0#8

/-- The unsigned sum exceeds 255 (R135). -/
def carryOut (a b : Byte) : Bool := decide (255 < a.toNat + b.toNat)

/-- a - b needs no borrow: a ≥ b (R136, R138). -/
def noBorrow (a b : Byte) : Bool := decide (b.toNat ≤ a.toNat)

/-- The bit a right shift by one shifts out (R137). -/
def shiftedOutRight (a : Byte) : Bool := a.getLsbD 0

/-- The bit a left shift by one shifts out (R139). -/
def shiftedOutLeft (a : Byte) : Bool := a.getLsbD 7

/-- `V[0xF] <- f`. -/
def State.setFlag (s : State) (f : Bool) : State := s.setV flagReg (flagByte f)

/-- The result to Vx, and only then the flag to VF, so that VF ends holding the flag when x = 0xF (R130). -/
def State.setVFlag (s : State) (x : Nibble) (r : Byte) (f : Bool) : State := (s.setV x r).setFlag f

end Sys2Proof.Machine
end

