-- ==== Sys2Proof/Machine/ControlFlow.lean ====
section
/-! DEFINITION. Return, jumps, call and the conditional skips (40_control_flow.md). On entry PC is P + 2 (30_encoding.md
R95, R96). -/

namespace Sys2Proof.Machine

/-- 00EE, RET (R101): `PC <- Pop()`, or `StackUnderflow` with PC as it is. -/
def execRet (s : State) : Host.Outcome State Fault Refusal :=
  .next (match s.pop with
    | some r => r.2.setPc r.1
    | none => s.raiseIn (encode .ret) .stackUnderflow none none)

/-- 1NNN, JP NNN (R102). -/
def execJp (nnn : Addr12) (s : State) : Host.Outcome State Fault Refusal :=
  .next (s.setPc (zext16 nnn))

/-- 2NNN, CALL NNN (R103): pushes P + 2, then jumps, or `StackOverflow` with nothing pushed and PC as it is. -/
def execCall (nnn : Addr12) (s : State) : Host.Outcome State Fault Refusal :=
  .next (match s.push s.pc with
    | some t => t.setPc (zext16 nnn)
    | none => s.raiseIn (encode (.call nnn)) .stackOverflow none (some s.stack.length))

/-- 3XNN, SE Vx, NN (R104). -/
def execSeImm (x : Nibble) (nn : Byte) (s : State) : Host.Outcome State Fault Refusal :=
  .next (s.skipIf (s.getV x == nn))

/-- 4XNN, SNE Vx, NN (R105). -/
def execSneImm (x : Nibble) (nn : Byte) (s : State) : Host.Outcome State Fault Refusal :=
  .next (s.skipIf (s.getV x != nn))

/-- 5XY0, SE Vx, Vy (R106); the low nibble was checked, if at all, by the decoder (R86). -/
def execSeReg (x y : Nibble) (s : State) : Host.Outcome State Fault Refusal :=
  .next (s.skipIf (s.getV x == s.getV y))

/-- 9XY0, SNE Vx, Vy (R107); the low nibble was checked, if at all, by the decoder (R86). -/
def execSneReg (x y : Nibble) (s : State) : Host.Outcome State Fault Refusal :=
  .next (s.skipIf (s.getV x != s.getV y))

/-- BNNN, JP V0, NNN (R108): the integer sum, 0 to 0x10FE, not masked to 12 bits. -/
def execJpV0 (nnn : Addr12) (s : State) : Host.Outcome State Fault Refusal :=
  .next (s.setPc (BitVec.ofNat 16 ((s.getV 0x0#4).toNat + nnn.toNat)))

end Sys2Proof.Machine
end

