-- ==== Sys2Proof/Machine/Display.lean ====
section
/-! DEFINITION. The display operations (44_display.md) over the framebuffer engine. -/

namespace Sys2Proof.Machine

/-- 00E0, CLS (R161): `Clear()`. -/
def execCls (s : State) : Host.Outcome State Fault Refusal :=
  .next (s.setFb (clearFramebuffer s.params))

/-- Row j of DXYN's loop (R163): reads the byte at I + j, even of a row that is dropped, and draws it at row y0 + j, an
integer; the Boolean gathers the collisions. -/
def drawRow (x0 y0 j : Nat) (sa : State × Bool) : Access (State × Bool) :=
  match sa.1.memRead (sa.1.indexed j) with
  | none => .outOfBounds sa (sa.1.indexed j)
  | some b =>
    let d := drawByte sa.1.params sa.1.fb x0 (y0 + j) b
    .ok (sa.1.setFb d.1, d.2 || sa.2)

/-- DXYN, DRW Vx, Vy, N (R163): the coordinates are read first and not reduced; VF is written last. -/
def execDrw (x y n : Nibble) (s : State) : Host.Outcome State Fault Refusal :=
  .next (match accessUp (drawRow (s.getV x).toNat (s.getV y).toNat) 0 n.toNat (s, false) with
    | .ok r => r.1.setFlag r.2
    | .outOfBounds r addr => r.1.raiseIn (encode (.drw x y n)) .outOfBoundsAccess (some addr) none)

end Sys2Proof.Machine
end

