-- ==== Sys2Proof/Machine/IndexRandom.lean ====
section
/-! DEFINITION. The index-register and random operations (43_index_random.md). -/

namespace Sys2Proof.Machine

/-- ANNN, LD I, NNN (R150). -/
def execLdI (nnn : Addr12) (s : State) : Host.Outcome State Fault Refusal :=
  .next (s.setI (zext16 nnn))

/-- FX1E, ADD I, Vx (R151): modulo 4096, no flag. -/
def execAddI (x : Nibble) (s : State) : Host.Outcome State Fault Refusal :=
  .next (s.setI (BitVec.ofNat 16 ((s.i.toNat + (s.getV x).toNat) % 4096)))

/-- CXNN, RND Vx, NN (R152): one query of the random port. -/
def execRnd (x : Nibble) (nn : Byte) (s : State) : Host.Outcome State Fault Refusal :=
  .next (s.rndNext.2.setV x (s.rndNext.1 &&& nn))

end Sys2Proof.Machine
end

