-- ==== Sys2Proof/Machine/KeyboardTimers.lean ====
section
/-! DEFINITION. The keyboard and timer operations (45_keyboard_timers.md). -/

namespace Sys2Proof.Machine

/-- EX9E, SKP Vx (R181). -/
def execSkp (x : Nibble) (s : State) : Host.Outcome State Fault Refusal :=
  .next (s.skipIf (s.keyPressed (keyNumber (s.getV x))))

/-- EXA1, SKNP Vx (R182). -/
def execSknp (x : Nibble) (s : State) : Host.Outcome State Fault Refusal :=
  .next (s.skipIf (!s.keyPressed (keyNumber (s.getV x))))

/-- FX07, LD Vx, DT (R183). -/
def execLdVxDT (x : Nibble) (s : State) : Host.Outcome State Fault Refusal :=
  .next (s.setV x s.dt)

/-- FX15, LD DT, Vx (R184). -/
def execLdDTVx (x : Nibble) (s : State) : Host.Outcome State Fault Refusal :=
  .next (s.setDt (s.getV x))

/-- FX18, LD ST, Vx (R185): raises no edge. -/
def execLdSTVx (x : Nibble) (s : State) : Host.Outcome State Fault Refusal :=
  .next (s.setSt (s.getV x))

/-- FX0A, LD Vx, K (R186): with no key pressed PC goes back to P, so the same word is fetched at the next STEP. -/
def execLdVxK (x : Nibble) (s : State) : Host.Outcome State Fault Refusal :=
  .next (match s.keyAny.1 with
    | none => s.setPc s.fetchedFrom
    | some k => s.keyAny.2.setV x (k.setWidth 8))

end Sys2Proof.Machine
end

