-- ==== Sys2Proof/Machine/MemoryOps.lean ====
section
/-! DEFINITION. Font address, BCD and block memory operations (46_memory_ops.md). I is read and never changed, except by
LD F. -/

namespace Sys2Proof.Machine

/-- FX29, LD F, Vx (R200). -/
def execLdF (x : Nibble) (s : State) : Host.Outcome State Fault Refusal :=
  .next (s.setI (fontAddr s.params (lowNibble (s.getV x))))

/-- FX33, LD B, Vx (R201): hundreds, tens, units at I, I + 1, I + 2. -/
def execLdB (x : Nibble) (s : State) : Host.Outcome State Fault Refusal :=
  .next (settle (encode (.ldB x)) (accessUp (fun k t => t.storeAt k (bcdDigit (s.getV x) k)) 0 3 s))

/-- FX55, LD [I], Vx (R202): V0 to Vx inclusive at I, I + 1, … -/
def execStoreRegs (x : Nibble) (s : State) : Host.Outcome State Fault Refusal :=
  .next (settle (encode (.storeRegs x)) (accessUp (fun k t => t.storeAt k (t.getV (BitVec.ofNat 4 k))) 0 (x.toNat + 1) s))

/-- FX65, LD Vx, [I] (R203): V0 to Vx inclusive from I, I + 1, … -/
def execLoadRegs (x : Nibble) (s : State) : Host.Outcome State Fault Refusal :=
  .next (settle (encode (.loadRegs x)) (accessUp (fun k t => t.loadAt k) 0 (x.toNat + 1) s))

end Sys2Proof.Machine
end

