-- ==== Sys2Proof/Machine/RegisterAlu.lean ====
section
/-! DEFINITION. The register-register operations, category 8 (42_register_alu.md): operands first, then the result to Vx,
then the flag, where there is one, to VF (R130). -/

namespace Sys2Proof.Machine

/-- 8XY0, LD Vx, Vy (R131). -/
def execLdReg (x y : Nibble) (s : State) : Host.Outcome State Fault Refusal :=
  .next (s.setV x (s.getV y))

/-- 8XY1, OR Vx, Vy (R132). -/
def execOr (x y : Nibble) (s : State) : Host.Outcome State Fault Refusal :=
  .next (s.setV x (s.getV x ||| s.getV y))

/-- 8XY2, AND Vx, Vy (R133). -/
def execAnd (x y : Nibble) (s : State) : Host.Outcome State Fault Refusal :=
  .next (s.setV x (s.getV x &&& s.getV y))

/-- 8XY3, XOR Vx, Vy (R134). -/
def execXor (x y : Nibble) (s : State) : Host.Outcome State Fault Refusal :=
  .next (s.setV x (s.getV x ^^^ s.getV y))

/-- 8XY4, ADD Vx, Vy (R135): VF is the carry. -/
def execAddReg (x y : Nibble) (s : State) : Host.Outcome State Fault Refusal :=
  .next (s.setVFlag x (s.getV x + s.getV y) (carryOut (s.getV x) (s.getV y)))

/-- 8XY5, SUB Vx, Vy (R136): VF is 1 when there is no borrow. -/
def execSub (x y : Nibble) (s : State) : Host.Outcome State Fault Refusal :=
  .next (s.setVFlag x (s.getV x - s.getV y) (noBorrow (s.getV x) (s.getV y)))

/-- 8XY6, SHR Vx, Vy (R137): shifts Vx; Vy is never read. -/
def execShr (x _y : Nibble) (s : State) : Host.Outcome State Fault Refusal :=
  .next (s.setVFlag x (s.getV x >>> 1) (shiftedOutRight (s.getV x)))

/-- 8XY7, SUBN Vx, Vy (R138): VF is 1 when there is no borrow. -/
def execSubn (x y : Nibble) (s : State) : Host.Outcome State Fault Refusal :=
  .next (s.setVFlag x (s.getV y - s.getV x) (noBorrow (s.getV y) (s.getV x)))

/-- 8XYE, SHL Vx, Vy (R139): shifts Vx; Vy is never read. -/
def execShl (x _y : Nibble) (s : State) : Host.Outcome State Fault Refusal :=
  .next (s.setVFlag x (s.getV x <<< 1) (shiftedOutLeft (s.getV x)))

end Sys2Proof.Machine
end

