-- ==== Sys2Proof/Machine/RegisterImmediate.lean ====
section
/-! DEFINITION. The register-immediate operations (41_register_immediate.md). -/

namespace Sys2Proof.Machine

/-- 6XNN, LD Vx, NN (R120). -/
def execLdImm (x : Nibble) (nn : Byte) (s : State) : Host.Outcome State Fault Refusal :=
  .next (s.setV x nn)

/-- 7XNN, ADD Vx, NN (R121): modulo 256, no flag. -/
def execAddImm (x : Nibble) (nn : Byte) (s : State) : Host.Outcome State Fault Refusal :=
  .next (s.setV x (s.getV x + nn))

end Sys2Proof.Machine
end

