-- ==== Sys2Proof/Machine/HostOps.lean ====
section
/-! DEFINITION. The host's operations other than STEP (10_state.md R39): TICK, LOAD, RESET and a change of the keyboard
state. The framebuffer read port (R40) is `State.readPixel`. -/

namespace Sys2Proof.Machine

/-- `update()` of one timer: down by 1, floored at 0 (60_exceptions.md R240). -/
def countDown (t : Byte) : Byte := if t = 0#8 then 0#8 else t - 1#8

/-- TICK (R240): both timers count down; SOUND_EDGE is whether ST was 1 (R241). -/
def State.tick (s : State) : State :=
  { s with dt := countDown s.dt, st := countDown s.st, soundEdge := s.st == 1#8 }

/-- LOAD(rom) (20_memory.md R61): the image from `PROGRAM_OFFSET`, as far as it fits, and ROM_WARN: `len ≥ MEM_CAPACITY - PROGRAM_OFFSET`, on
integers. -/
def State.loadRom (s : State) (rom : List Byte) : State :=
  { s with
    mem := Memory.setRun s.params s.mem s.params.programOffset rom
    romWarn := decide (s.params.memCapacity ≤ s.params.programOffset + rom.length)
    romOpen := false }

/-- RESET (70_reset_and_hazards.md R260), with the values it leaves unspecified taken from `l`. What is outside the
block (keyboard, random port, the host's order) and the instance's parameters stay (log 20). -/
def State.resetTo (s : State) (l : Launch) : State :=
  { v := l.v
    i := l.i.setWidth 16
    pc := BitVec.ofNat 16 s.params.programOffset
    stack := []
    dt := l.dt
    st := l.st
    fb := clearFramebuffer s.params
    mem := Memory.setRun s.params (Memory.ofCells s.params [] l.mem) s.params.fontBase s.params.fontTable
    fault := none
    soundEdge := false
    romWarn := false
    keys := s.keys
    rnd := s.rnd
    params := s.params
    schedule := s.schedule
    later := s.later
    romOpen := true
    draws := s.draws }

/-- The framebuffer read port (R40): `FB[x][y]`. -/
def State.readPixel (s : State) (x y : Nat) : Bool := Framebuffer.pixel s.fb x y

end Sys2Proof.Machine
end

