-- ==== Sys2Proof/Machine/Cycle.lean ====
section
/-! DEFINITION. The STEP operation (30_encoding.md R95) and the host's operations as the machine performs them
(10_state.md R39). -/

namespace Sys2Proof.Machine

/-- From decode on (R95): `op` was fetched and PC has been advanced; an illegal word raises `InvalidOpcode`. -/
def decodeAndExec (op : Word) (s : State) : Host.Outcome State Fault Refusal :=
  match decode s.params.strict59 op with
  | .instr i => exec i s
  | .invalidOpcode w => .next (s.raiseIn w .invalidOpcode none none)

/-- STEP (R95). While the latch is set it changes nothing (60_exceptions.md R224). Otherwise the run has begun, so LOAD
is over (log 10): fetch, advance PC, decode, execute. -/
def stepOp (s : State) : Host.Outcome State Fault Refusal :=
  match s.fault with
  | some _ => .next s
  | none =>
    match s.closeRom.fetch with
    | .outOfBounds addr => .next (s.closeRom.raiseInFetch addr)
    | .word op => decodeAndExec op s.closeRom.advance

/-- One operation of the host (R39). LOAD comes once after RESET and before the first STEP; another is refused
(20_memory.md R61, R70; 93_implementation_defined.md U23). -/
def perform (op : HostOp) (s : State) : Host.Outcome State Fault Refusal :=
  match op with
  | .step => stepOp s
  | .tick => .next s.tick
  | .setKeys keys => .next { s with keys := keys }
  | .load rom => if s.romOpen then .next (s.loadRom rom) else .refused .loadOutOfOrder
  | .reset l => .next (s.resetTo l)

end Sys2Proof.Machine
end

