-- ==== Sys2Proof/Machine/Step.lean ====
section
/-! DEFINITION. One step of the machine: the host's next operation (log 6). -/

namespace Sys2Proof.Machine

/-- One step: the host's next operation (`State.nextOp`). Every operation is one atomic transition, in the order the host
issues them (20_memory.md R65). -/
def step (s : State) : Host.Outcome State Fault Refusal :=
  perform s.nextOp.1 s.nextOp.2

/-- The state whose next step fetches and runs the word w (nbits of it; a row of the opcode table has 16). -/
def State.withFetchWord (s : State) (nbits w : Nat) : State := s.placeWord (tableWord nbits w)

end Sys2Proof.Machine
end

