-- ==== Sys2Proof/Safety.lean ====
section
/-! DEFINITION. The terms statements are written in: the frames of instructions, how a run stands (70_reset_and_hazards.md
R267), and the invariant of the machine. -/

namespace Sys2Proof.Machine

/-! ### Frames -/

/-- Every byte of memory reads as before, in or out of bounds. -/
def SameMemory (s t : State) : Prop := ∀ a : Int, t.memRead a = s.memRead a

/-- Nothing changed but the general registers listed: every other register, and every other part of the state, is as it
was. -/
def OnlyRegisters (rs : List Nibble) (s t : State) : Prop :=
  (∀ r : Nibble, r ∉ rs → t.getV r = s.getV r) ∧ t = { s with v := t.v } ∧ SameMemory s t

/-- Nothing changed but PC. -/
def OnlyPc (s t : State) : Prop := t = { s with pc := t.pc } ∧ SameMemory s t

/-- Nothing changed but I. -/
def OnlyIndex (s t : State) : Prop := t = { s with i := t.i } ∧ SameMemory s t

/-- Nothing changed but the framebuffer. -/
def OnlyFramebuffer (s t : State) : Prop := t = { s with fb := t.fb } ∧ SameMemory s t

/-- Nothing changed but the bytes at `I + k`, k < n. -/
def OnlyIndexedBytes (n : Nat) (s t : State) : Prop :=
  t = { s with mem := t.mem } ∧ ∀ a : Int, (∀ k < n, a ≠ s.indexed k) → t.memRead a = s.memRead a

/-- The access at `I + k` is the first one out of bounds (60_exceptions.md R225). -/
def FirstOutOfBounds (s : State) (k : Nat) : Prop :=
  ¬ validAddr s.params (s.indexed k) ∧ ∀ j < k, validAddr s.params (s.indexed j)

/-- The record of an error raised by the instruction with word `op`, running with PC at P + 2 (60_exceptions.md R222). -/
def recordIn (s : State) (op : Word) (code : ErrorCode) (addr : Option Int) (depth : Option Nat) : FaultRecord :=
  { code := code, pc := s.pc - 2#16, opcode := some op, addr := addr, depth := depth }

/-! ### The sprite as a picture (44_display.md R162, R163) -/

/-- The sprite of n rows at column x0, row y0 has a 1 bit at column px, row py: row j lies at y0 + j, its byte at I + j,
bit 7 at column x0. -/
def spriteBit (s : State) (x0 y0 n px py : Nat) : Bool :=
  decide (x0 ≤ px ∧ px < x0 + 8 ∧ y0 ≤ py ∧ py < y0 + n) &&
    (Memory.get s.params s.mem (s.i.toNat + (py - y0))).getLsbD (7 - (px - x0))

/-! ### How a run stands (70_reset_and_hazards.md R267) -/

/-- Faulted: the latch is set. -/
def State.faulted (s : State) : Prop := s.fault ≠ none

/-- The host's next operation is a STEP. -/
def State.stepNext (s : State) : Prop := s.nextOp.1 = .step

/-- The state with the host's next operation taken off its order. -/
def State.issued (s : State) : State := s.nextOp.2

/-- The state after n steps, if each of them answers a next state. -/
def State.runFor : Nat → State → Option State
  | 0, s => some s
  | n + 1, s =>
    match step s with
    | .next t => State.runFor n t
    | .fault _ => none
    | .refused _ => none

/-- Idle at A: PC = A and the word at A is a jump to A. -/
def State.idle (s : State) : Prop :=
  s.fault = none ∧ ∃ nnn : Addr12, s.pc = zext16 nnn ∧ s.fetch = .word (encode (.jp nnn))

/-! ### The invariant -/

/-- The instructions that access memory at I + k (60_exceptions.md R221). -/
def accessesMemory : Instr → Bool
  | .drw _ _ _ | .ldB _ | .storeRegs _ | .loadRegs _ => true
  | _ => false

/-- A record says what its code records and nothing else (60_exceptions.md R220, R222). -/
def FaultRecord.wf (p : Params) (r : FaultRecord) : Prop :=
  match r.code with
  | .invalidOpcode =>
    (∃ op, r.opcode = some op ∧ decode p.strict59 op = .invalidOpcode op) ∧ r.addr = none ∧ r.depth = none
  | .stackUnderflow => r.opcode = some (encode .ret) ∧ r.addr = none ∧ r.depth = none
  | .stackOverflow =>
    (∃ nnn, r.opcode = some (encode (.call nnn))) ∧ r.addr = none ∧ r.depth = p.stackDepth ∧ p.stackDepth ≠ none
  | .outOfBoundsAccess =>
    (∃ a, r.addr = some a ∧ ¬ validAddr p a ∧
      ((r.opcode = none ∧ (a = r.pc.toInt ∨ a = r.pc.toInt + 1)) ∨
        ∃ i, accessesMemory i = true ∧ r.opcode = some (encode i))) ∧ r.depth = none

/-- What holds of every state of a run: the parameters are an instance (log 22), memory is canonical, the framebuffer is a
grid of its size (10_state.md R30), I is at most 0xFFF (R23), PC lies from 0 to 0x10FE or just above the memory (R27), the
stack holds addresses at most `MEM_CAPACITY` and at most `STACK_DEPTH` of them (R27, R28), and a latched record is one of
60_exceptions.md R222's. -/
structure State.Inv (s : State) : Prop where
  instanceWf : paramsWf s.params
  memory : Memory.wf s.params s.mem
  screen : Framebuffer.wf s.params s.fb
  index : s.i.toNat ≤ 0xFFF
  pcRange : 0 ≤ s.pc.toInt ∧ (s.pc.toInt ≤ 0x10FE ∨ s.pc.toInt ≤ s.params.memCapacity + 2)
  entries : ∀ a ∈ s.stack, a.toNat ≤ s.params.memCapacity
  depth : ∀ d, s.params.stackDepth = some d → s.stack.length ≤ d
  record : ∀ r, s.fault = some r → FaultRecord.wf s.params r

end Sys2Proof.Machine
end

