-- ==== Sys2Proof/Certificates/Slice0/Obligations.lean ====
section
/-! DEFINITION. The statements for the provers. A statement about an instruction runs it with PC at P + 2, as STEP does
(30_encoding.md R95, R96). `recordIn`, `OnlyRegisters` and the other frames are of Sys2Proof/Safety.lean. -/

open Sys2Proof Sys2Proof.Machine

/-! ### Encoding -/

/-- Decoding the word of an instruction gives it back, with every operand at every value its field admits, for both
values of `STRICT_5_9` (R84, R86; the patterns are the spec's own from general knowledge, log 5). -/
def Obligations.DecodeOfEncodeIsTheInstruction : Prop :=
  ∀ (strict : Bool) (i : Instr), i.wf strict = true → decode strict (encode i) = .instr i

/-- A word that decodes is the encoding of what it decodes to, which is an instruction of the instance: no two words
share an instruction and no bit of a word is dropped (R81, R84, R86; log 5, log 16). -/
def Obligations.EncodeOfDecodeIsTheWord : Prop :=
  ∀ (strict : Bool) (op : Word) (i : Instr), decode strict op = .instr i → encode i = op ∧ i.wf strict = true

/-- The decoder answers an instruction of row r exactly for the words row r of the opcode map matches, and rejects, by
name, every word no row matches (R84, R85, R87, R89; log 5). -/
def Obligations.DecoderFollowsTheOpcodeMap : Prop :=
  ∀ (strict : Bool) (op : Word),
    (∀ r ∈ opcodeRows strict, r.matchesWord op = true → ∃ i, decode strict op = .instr i ∧ i.row = r.num) ∧
    ((∀ r ∈ opcodeRows strict, r.matchesWord op = false) → decode strict op = .invalidOpcode op)

/-- "At most one row matches any word" (R84). -/
def Obligations.OpcodeRowsNeverOverlap : Prop :=
  ∀ (strict : Bool) (op : Word), ∀ r ∈ opcodeRows strict, ∀ q ∈ opcodeRows strict,
    r.matchesWord op = true → q.matchesWord op = true → r = q

/-- R86: with `STRICT_5_9` = false the low nibble of 5XYN and 9XYN is not consulted; with true, a nonzero one makes the
word illegal (the spec's decision D7). -/
def Obligations.RegisterSkipsDecodeByStrictness : Prop :=
  ∀ (x y n : Nibble),
    decode false (0x5#4 ++ x ++ y ++ n) = .instr (.seReg x y n) ∧
    decode false (0x9#4 ++ x ++ y ++ n) = .instr (.sneReg x y n) ∧
    (n = 0x0#4 → decode true (0x5#4 ++ x ++ y ++ n) = .instr (.seReg x y n)) ∧
    (n = 0x0#4 → decode true (0x9#4 ++ x ++ y ++ n) = .instr (.sneReg x y n)) ∧
    (n ≠ 0x0#4 → decode true (0x5#4 ++ x ++ y ++ n) = .invalidOpcode (0x5#4 ++ x ++ y ++ n)) ∧
    (n ≠ 0x0#4 → decode true (0x9#4 ++ x ++ y ++ n) = .invalidOpcode (0x9#4 ++ x ++ y ++ n))

/-- One word of each family, written out from R84, decodes to its instruction. -/
def Obligations.SampleWordsDecode : Prop :=
  decode false 0x00E0#16 = .instr .cls ∧ decode false 0x1ABC#16 = .instr (.jp 0xABC#12) ∧
  decode false 0x6A2B#16 = .instr (.ldImm 0xA#4 0x2B#8) ∧ decode false 0x8AB6#16 = .instr (.shr 0xA#4 0xB#4) ∧
  decode false 0xC30F#16 = .instr (.rnd 0x3#4 0x0F#8) ∧ decode false 0xD125#16 = .instr (.drw 0x1#4 0x2#4 0x5#4) ∧
  decode false 0xF20A#16 = .instr (.ldVxK 0x2#4) ∧ decode false 0xF255#16 = .instr (.storeRegs 0x2#4) ∧
  decode false 0x01E0#16 = .invalidOpcode 0x01E0#16 ∧ decode false 0x0000#16 = .invalidOpcode 0x0000#16

/-! ### The step -/

/-- A step whose bytes at PC decode to an instruction runs it: the host's next operation is a STEP (taken off the
schedule or what follows it, log 6), the latch is clear, the bytes at P and P + 1 (high byte first) decode to i; then the step is `exec i` at
the state with PC = P + 2 and LOAD over (log 10). The instance is any. -/
def Obligations.StepRunsTheDecodedInstruction : Prop :=
  ∀ (s : State) (b0 b1 : Byte) (i : Instr), s.stepNext → s.fault = none → s.memRead s.pc.toInt = some b0 →
    s.memRead (s.pc.toInt + 1) = some b1 → decode s.params.strict59 (b0 ++ b1) = .instr i →
    step s = exec i { s.issued with pc := s.pc + 2#16, romOpen := false }

/-- The first byte of a fetch, then the second, is checked: the record names P, no opcode, and the address out of bounds,
and nothing else changes (R95, R222, R225; records are the spec's decision D19). -/
def Obligations.FetchOutOfBoundsIsLatched : Prop :=
  ∀ s : State, s.stepNext → s.fault = none →
    (¬ validAddr s.params s.pc.toInt → step s = .next { s.issued with
      romOpen := false, fault := some ⟨.outOfBoundsAccess, s.pc, none, some s.pc.toInt, none⟩ }) ∧
    (validAddr s.params s.pc.toInt → ¬ validAddr s.params (s.pc.toInt + 1) → step s = .next { s.issued with
      romOpen := false, fault := some ⟨.outOfBoundsAccess, s.pc, none, some (s.pc.toInt + 1), none⟩ })

/-- A word that matches no row raises `InvalidOpcode`: the record names P and the word, PC has been advanced, and nothing
else changes (R87, R95, R222; D19). -/
def Obligations.IllegalWordIsLatched : Prop :=
  ∀ (s : State) (b0 b1 : Byte), s.stepNext → s.fault = none → s.memRead s.pc.toInt = some b0 →
    s.memRead (s.pc.toInt + 1) = some b1 → (∀ r ∈ opcodeRows s.params.strict59, r.matchesWord (b0 ++ b1) = false) →
    step s = .next { s.issued with
      pc := s.pc + 2#16, romOpen := false, fault := some ⟨.invalidOpcode, s.pc, some (b0 ++ b1), none, none⟩ }

/-- While the latch is set a STEP changes nothing (the host's order apart) and RESULT is the same error again (R224,
the spec's decision D1). -/
def Obligations.FaultedStepChangesNothing : Prop :=
  ∀ (s : State) (r : FaultRecord), s.stepNext → s.fault = some r →
    step s = .next s.issued ∧ s.issued.result = .err r

/-- Only RESET clears the fault latch: no other operation of the host changes a latched record (R32, R224; D1). -/
def Obligations.OnlyResetClearsTheLatch : Prop :=
  ∀ (s t : State) (r : FaultRecord), step s = .next t → s.fault = some r →
    (∀ l : Launch, s.nextOp.1 ≠ .reset l) → t.fault = some r

/-- Every step answers a next state, but for a LOAD out of its order: no instruction, legal or not, stops the machine
(log 1, log 10). -/
def Obligations.OnlyMisplacedLoadIsRefused : Prop :=
  ∀ s : State,
    ((∃ rom, s.nextOp.1 = .load rom) ∧ s.romOpen = false → step s = .refused .loadOutOfOrder) ∧
    (¬ ((∃ rom, s.nextOp.1 = .load rom) ∧ s.romOpen = false) → ∃ t, step s = .next t)

/-- The word `withFetchWord` places is the instruction the very next step runs, at P + 2, in every instance (log 22). -/
def Obligations.PlacedWordRunsNext : Prop :=
  ∀ (s : State) (w : Nat) (i : Instr), paramsWf s.params → Memory.wf s.params s.mem → decode s.params.strict59 (BitVec.ofNat 16 w) = .instr i →
    step (s.withFetchWord 16 w) =
      exec i { (s.withFetchWord 16 w).issued with pc := (s.withFetchWord 16 w).pc + 2#16, romOpen := false }

/-! ### Memory and the stack -/

/-- A byte write in bounds answers a state in which that address reads as the byte and every other address as before; out
of bounds it fails; a read fails exactly out of bounds (R51, R52, R57). The canonical form `Memory.wf`, in the premise and in
the conclusion, is the model's own choice (log 3). -/
def Obligations.ByteReadAfterByteWrite : Prop :=
  ∀ (s : State) (a : Int) (b : Byte), Memory.wf s.params s.mem →
    (validAddr s.params a → ∃ t, s.memWrite a b = some t ∧ t.memRead a = some b ∧ (∀ c : Int, c ≠ a → t.memRead c = s.memRead c) ∧
      Memory.wf t.params t.mem ∧ t = { s with mem := t.mem }) ∧
    (¬ validAddr s.params a → s.memWrite a b = none) ∧ (s.memRead a = none ↔ ¬ validAddr s.params a)

/-- Pushing an address and popping gives it back and restores the stack (R62, R63). -/
def Obligations.PopAfterPushGivesTheEntry : Prop :=
  ∀ (s t : State) (a : Word), s.push a = some t → t.stack = s.stack ++ [a] ∧ t.pop = some (a, s)

/-! ### Control flow -/

/-- 00EE (R101): PC becomes the entry pushed last, which is removed; on an empty stack `StackUnderflow` is raised and PC
stays. Nothing else changes. -/
def Obligations.ReturnPopsIntoPc : Prop :=
  (∀ (s : State) (rest : List Word) (a : Word), s.stack = rest ++ [a] →
    ∃ t, exec .ret s = .next t ∧ t.pc = a ∧ t.stack = rest ∧ t = { s with pc := t.pc, stack := t.stack } ∧
      SameMemory s t) ∧
  (∀ s : State, s.stack = [] →
    ∃ t, exec .ret s = .next t ∧ t.fault = some (recordIn s 0x00EE#16 .stackUnderflow none none) ∧
      t = { s with fault := t.fault } ∧ SameMemory s t)

/-- 1NNN (R102): PC becomes NNN whatever it was, and nothing else changes. -/
def Obligations.JumpSetsPc : Prop :=
  ∀ (nnn : Addr12) (s : State),
    ∃ t, exec (.jp nnn) s = .next t ∧ t.pc.toNat = nnn.toNat ∧ OnlyPc s t

/-- 2NNN (R103): with room on the stack, PC (= P + 2) is pushed and PC becomes NNN; with the stack at a finite
`STACK_DEPTH`, `StackOverflow` records the depth, and neither PC nor the stack changes. -/
def Obligations.CallPushesThenJumps : Prop :=
  ∀ (nnn : Addr12) (s : State),
    (s.params.stackDepth ≠ some s.stack.length →
      ∃ t, exec (.call nnn) s = .next t ∧ t.pc.toNat = nnn.toNat ∧ t.stack = s.stack ++ [s.pc] ∧
        t = { s with pc := t.pc, stack := t.stack } ∧ SameMemory s t) ∧
    (s.params.stackDepth = some s.stack.length →
      ∃ t, exec (.call nnn) s = .next t ∧
        t.fault = some (recordIn s (encode (.call nnn)) .stackOverflow none (some s.stack.length)) ∧
        t = { s with fault := t.fault } ∧ SameMemory s t)

/-- "Call then return is an identity on PC" (R103): a return from the state a call left, wherever the subroutine stands
and whatever else it did, restores PC to the value after the call and the stack to what it was. -/
def Obligations.CallThenReturnRestoresPc : Prop :=
  ∀ (nnn : Addr12) (s t u : State), s.params.stackDepth ≠ some s.stack.length → exec (.call nnn) s = .next t →
    u.stack = t.stack → ∃ r, exec .ret u = .next r ∧ r.pc = s.pc ∧ r.stack = s.stack

/-- BNNN (R108): PC becomes the integer sum V0 + NNN, not masked to 12 bits, and nothing else changes. -/
def Obligations.IndexedJumpAddsV0 : Prop :=
  ∀ (nnn : Addr12) (s : State),
    ∃ t, exec (.jpV0 nnn) s = .next t ∧ t.pc.toNat = (s.getV 0x0#4).toNat + nnn.toNat ∧ OnlyPc s t

/-- 3XNN and 4XNN (R104, R105): PC gains 2 exactly when Vx equals, respectively differs from, NN; nothing else changes. -/
def Obligations.ImmediateSkips : Prop :=
  ∀ (x : Nibble) (nn : Byte) (s : State),
    (∃ t, exec (.seImm x nn) s = .next t ∧ (s.getV x = nn → t.pc = s.pc + 2#16) ∧ (s.getV x ≠ nn → t.pc = s.pc) ∧
      OnlyPc s t) ∧
    (∃ t, exec (.sneImm x nn) s = .next t ∧ (s.getV x ≠ nn → t.pc = s.pc + 2#16) ∧ (s.getV x = nn → t.pc = s.pc) ∧
      OnlyPc s t)

/-- 5XYN and 9XYN (R106, R107), for every low nibble the decoder let through: PC gains 2 exactly when Vx equals,
respectively differs from, Vy; nothing else changes. -/
def Obligations.RegisterSkips : Prop :=
  ∀ (x y n : Nibble) (s : State),
    (∃ t, exec (.seReg x y n) s = .next t ∧ (s.getV x = s.getV y → t.pc = s.pc + 2#16) ∧
      (s.getV x ≠ s.getV y → t.pc = s.pc) ∧ OnlyPc s t) ∧
    (∃ t, exec (.sneReg x y n) s = .next t ∧ (s.getV x ≠ s.getV y → t.pc = s.pc + 2#16) ∧
      (s.getV x = s.getV y → t.pc = s.pc) ∧ OnlyPc s t)

/-! ### Register-immediate and register-register operations -/

/-- 6XNN (R120): Vx becomes NN, and nothing else changes. -/
def Obligations.LoadImmediate : Prop :=
  ∀ (x : Nibble) (nn : Byte) (s : State), ∃ t, exec (.ldImm x nn) s = .next t ∧ t.getV x = nn ∧ OnlyRegisters [x] s t

/-- 7XNN (R121): Vx becomes (Vx + NN) mod 256 and no flag is recorded anywhere, so VF changes only as Vx. -/
def Obligations.AddImmediateWrapsWithoutFlag : Prop :=
  ∀ (x : Nibble) (nn : Byte) (s : State),
    ∃ t, exec (.addImm x nn) s = .next t ∧ (t.getV x).toNat = ((s.getV x).toNat + nn.toNat) % 256 ∧
      OnlyRegisters [x] s t

/-- 8XY0 (R131): Vx becomes Vy, and nothing else changes. -/
def Obligations.CopyRegister : Prop :=
  ∀ (x y : Nibble) (s : State),
    ∃ t, exec (.ldReg x y) s = .next t ∧ t.getV x = s.getV y ∧ OnlyRegisters [x] s t

/-- 8XY1, 8XY2, 8XY3: Vx becomes the bitwise OR, AND, XOR; VF is unchanged unless x = F (R132-R134; that VF is unchanged is
the spec's decision D9). -/
def Obligations.BitwiseOperations : Prop :=
  ∀ (x y : Nibble) (s : State),
    (∃ t, exec (.orReg x y) s = .next t ∧
      (∀ k < 8, (t.getV x).getLsbD k = ((s.getV x).getLsbD k || (s.getV y).getLsbD k)) ∧ OnlyRegisters [x] s t) ∧
    (∃ t, exec (.andReg x y) s = .next t ∧
      (∀ k < 8, (t.getV x).getLsbD k = ((s.getV x).getLsbD k && (s.getV y).getLsbD k)) ∧ OnlyRegisters [x] s t) ∧
    (∃ t, exec (.xorReg x y) s = .next t ∧
      (∀ k < 8, (t.getV x).getLsbD k = ((s.getV x).getLsbD k ^^ (s.getV y).getLsbD k)) ∧ OnlyRegisters [x] s t)

/-- 8XY4: Vx becomes the sum mod 256 and VF the carry; with x = F the carry is what VF ends with (R135; the flag written
last is R130, the spec's decision D8). -/
def Obligations.AddRegistersWithCarry : Prop :=
  ∀ (x y : Nibble) (s : State),
    ∃ t, exec (.addReg x y) s = .next t ∧
      (x ≠ 0xF#4 → (t.getV x).toNat = ((s.getV x).toNat + (s.getV y).toNat) % 256) ∧
      t.getV 0xF#4 = (if (s.getV x).toNat + (s.getV y).toNat > 255 then 1#8 else 0#8) ∧
      OnlyRegisters [x, 0xF#4] s t

/-- 8XY5 and 8XY7: Vx becomes Vx - Vy, respectively Vy - Vx, reduced into 0 to 255, and VF is 1 exactly when no borrow was
needed; with x = F the flag is what VF ends with (R136, R138; flag last: R130, D8). -/
def Obligations.SubtractRegistersWithNoBorrow : Prop :=
  ∀ (x y : Nibble) (s : State),
    (∃ t, exec (.sub x y) s = .next t ∧
      (x ≠ 0xF#4 → ((t.getV x).toNat : Int) = (((s.getV x).toNat : Int) - (s.getV y).toNat) % 256) ∧
      t.getV 0xF#4 = (if (s.getV x).toNat ≥ (s.getV y).toNat then 1#8 else 0#8) ∧ OnlyRegisters [x, 0xF#4] s t) ∧
    (∃ t, exec (.subn x y) s = .next t ∧
      (x ≠ 0xF#4 → ((t.getV x).toNat : Int) = (((s.getV y).toNat : Int) - (s.getV x).toNat) % 256) ∧
      t.getV 0xF#4 = (if (s.getV y).toNat ≥ (s.getV x).toNat then 1#8 else 0#8) ∧ OnlyRegisters [x, 0xF#4] s t)

/-- 8XY6 and 8XYE: Vx is halved, respectively doubled mod 256, whatever y is, and VF is the bit shifted out; with x = F
that bit is what VF ends with (R137, R139; flag last: R130, D8). -/
def Obligations.ShiftsUseVxAlone : Prop :=
  ∀ (x y : Nibble) (s : State),
    (∃ t, exec (.shr x y) s = .next t ∧ (x ≠ 0xF#4 → (t.getV x).toNat = (s.getV x).toNat / 2) ∧
      (t.getV 0xF#4).toNat = (s.getV x).toNat % 2 ∧ OnlyRegisters [x, 0xF#4] s t) ∧
    (∃ t, exec (.shl x y) s = .next t ∧ (x ≠ 0xF#4 → (t.getV x).toNat = (s.getV x).toNat * 2 % 256) ∧
      (t.getV 0xF#4).toNat = (s.getV x).toNat / 128 ∧ OnlyRegisters [x, 0xF#4] s t)

/-! ### Index and random -/

/-- ANNN (R150): I becomes NNN, and nothing else changes. -/
def Obligations.LoadIndex : Prop :=
  ∀ (nnn : Addr12) (s : State), ∃ t, exec (.ldI nnn) s = .next t ∧ t.i.toNat = nnn.toNat ∧ OnlyIndex s t

/-- FX1E: I becomes (I + Vx) mod 4096, and nothing else changes, VF included (R151; that VF is not written is the spec's
decision D10). -/
def Obligations.AddToIndexWrapsAt4096 : Prop :=
  ∀ (x : Nibble) (s : State),
    ∃ t, exec (.addI x) s = .next t ∧ t.i.toNat = (s.i.toNat + (s.getV x).toNat) % 4096 ∧ OnlyIndex s t

/-- CXNN (R152): one byte is drawn from the random port and Vx becomes that byte AND NN. A byte the host supplied is taken
off the port; with none supplied the byte is the free value of the draw counter, which advances. Nothing else changes. -/
def Obligations.RandomByteIsMasked : Prop :=
  ∀ (x : Nibble) (nn : Byte) (s : State),
    (∀ (b : Byte) (bs : List Byte), s.rnd = b :: bs →
      ∃ t, exec (.rnd x nn) s = .next t ∧ t.getV x = b &&& nn ∧ (∀ r, r ≠ x → t.getV r = s.getV r) ∧
        t = { s with v := t.v, rnd := bs } ∧ SameMemory s t) ∧
    (s.rnd = [] →
      ∃ t, exec (.rnd x nn) s = .next t ∧ t.getV x = Config.rndByte s.draws &&& nn ∧ (∀ r, r ≠ x → t.getV r = s.getV r) ∧
        t = { s with v := t.v, draws := s.draws + 1 } ∧ SameMemory s t)

/-! ### Display -/

/-- 00E0 (R161): every pixel is clear, and nothing else changes. -/
def Obligations.ClearScreen : Prop :=
  ∀ s : State, ∃ t, exec .cls s = .next t ∧ (∀ x y : Nat, t.readPixel x y = false) ∧ OnlyFramebuffer s t

/-- DXYN with its bytes in bounds draws the sprite on the instance's grid: every pixel of the grid is toggled exactly where the sprite placed at
(Vx, Vy) has a 1 bit, clipped at the edges and never wrapped, and VF is 1 exactly when a set pixel was cleared. I, memory
and every other register are as before (R162, R163; that the coordinates are not wrapped and that n = 0 draws nothing are
the spec's decisions D11, D13). -/
def Obligations.SpriteIsXoredOntoTheScreen : Prop :=
  ∀ (x y n : Nibble) (s : State), Framebuffer.wf s.params s.fb → (∀ j < n.toNat, validAddr s.params (s.indexed j)) →
    ∃ t, exec (.drw x y n) s = .next t ∧
      (∀ px py : Nat, px < s.params.fbWidth → py < s.params.fbHeight → t.readPixel px py =
        (s.readPixel px py ^^ spriteBit s (s.getV x).toNat (s.getV y).toNat n.toNat px py)) ∧
      ((∃ px py : Nat, px < s.params.fbWidth ∧ py < s.params.fbHeight ∧ s.readPixel px py = true ∧
          spriteBit s (s.getV x).toNat (s.getV y).toNat n.toNat px py = true) → t.getV 0xF#4 = 1#8) ∧
      ((∀ px py : Nat, px < s.params.fbWidth → py < s.params.fbHeight → s.readPixel px py = true →
          spriteBit s (s.getV x).toNat (s.getV y).toNat n.toNat px py = false) → t.getV 0xF#4 = 0#8) ∧
      (∀ r : Nibble, r ≠ 0xF#4 → t.getV r = s.getV r) ∧ t = { s with fb := t.fb, v := t.v } ∧ SameMemory s t

/-- DXYN with a byte out of bounds: the first such address is recorded, even of a row that is dropped, and nothing but
pixels and the latch changes (R163, R222, R223, R225; D1, D12, D19). -/
def Obligations.SpriteOutOfBoundsIsLatched : Prop :=
  ∀ (x y n : Nibble) (s : State) (j : Nat), j < n.toNat → FirstOutOfBounds s j →
    ∃ t, exec (.drw x y n) s = .next t ∧
      t.fault = some (recordIn s (encode (.drw x y n)) .outOfBoundsAccess (some (s.indexed j)) none) ∧
      t = { s with fb := t.fb, fault := t.fault } ∧ SameMemory s t

/-- Drawing one sprite twice at one place, with no coordinate in VF, restores the screen (R163's corner case; log 21). -/
def Obligations.DrawingTwiceRestoresTheScreen : Prop :=
  ∀ (x y n : Nibble) (s t u : State), Framebuffer.wf s.params s.fb → x ≠ 0xF#4 → y ≠ 0xF#4 →
    (∀ j < n.toNat, validAddr s.params (s.indexed j)) →
    exec (.drw x y n) s = .next t → exec (.drw x y n) t = .next u → ∀ px py : Nat, px < s.params.fbWidth → py < s.params.fbHeight → u.readPixel px py = s.readPixel px py

/-! ### Keyboard and timers -/

/-- EX9E and EXA1: PC gains 2 exactly when the key of Vx's low nibble is pressed, respectively not pressed; nothing else
changes (R180, R181, R182). -/
def Obligations.KeySkips : Prop :=
  ∀ (x k : Nibble) (s : State), k.toNat = (s.getV x).toNat % 16 →
    (∃ t, exec (.skp x) s = .next t ∧ (s.keyPressed k = true → t.pc = s.pc + 2#16) ∧
      (s.keyPressed k = false → t.pc = s.pc) ∧ OnlyPc s t) ∧
    (∃ t, exec (.sknp x) s = .next t ∧ (s.keyPressed k = false → t.pc = s.pc + 2#16) ∧
      (s.keyPressed k = true → t.pc = s.pc) ∧ OnlyPc s t)

/-- FX0A: with no key pressed PC goes back by 2 and nothing else changes; with keys pressed Vx becomes the number of one of
them, PC stays, and nothing else changes but the draw counter (R186; which of several keys is the spec's decision D16, a
free value, log 8). -/
def Obligations.KeyWaitStoresAPressedKey : Prop :=
  ∀ (x : Nibble) (s : State),
    ((∀ k : Nibble, s.keyPressed k = false) →
      ∃ t, exec (.ldVxK x) s = .next t ∧ t.pc = s.pc - 2#16 ∧ OnlyPc s t) ∧
    ((∃ k : Nibble, s.keyPressed k = true) →
      ∃ (t : State) (k : Nibble), exec (.ldVxK x) s = .next t ∧ s.keyPressed k = true ∧ (t.getV x).toNat = k.toNat ∧
        (∀ r, r ≠ x → t.getV r = s.getV r) ∧ t = { s with v := t.v, draws := t.draws } ∧ SameMemory s t)

/-- FX07 (R183): Vx becomes DT, and nothing else changes. -/
def Obligations.ReadDelayTimer : Prop :=
  ∀ (x : Nibble) (s : State), ∃ t, exec (.ldVxDT x) s = .next t ∧ t.getV x = s.dt ∧ OnlyRegisters [x] s t

/-- FX15 and FX18: DT, respectively ST, becomes Vx, and nothing else changes, SOUND_EDGE included (R184, R185; that FX18
raises no edge is the spec's decision D18). -/
def Obligations.SetTimers : Prop :=
  ∀ (x : Nibble) (s : State),
    (∃ t, exec (.ldDTVx x) s = .next t ∧ t.dt = s.getV x ∧ t = { s with dt := t.dt } ∧ SameMemory s t) ∧
    (∃ t, exec (.ldSTVx x) s = .next t ∧ t.st = s.getV x ∧ t = { s with st := t.st } ∧ SameMemory s t)

/-! ### Memory operations -/

/-- FX29 (R200): I becomes `FONT_BASE` + `GLYPH_SIZE` times the low nibble of Vx, in every instance whose glyphs lie in the
range of I (R23); this hardware's lie there, from 0x50, 5 bytes each. No memory is accessed and nothing else changes. -/
def Obligations.FontAddressOfLowNibble : Prop :=
  ∀ (x : Nibble) (s : State), s.params.fontBase + 15 * s.params.glyphSize ≤ 0xFFF →
    ∃ t, exec (.ldF x) s = .next t ∧
      t.i.toNat = s.params.fontBase + s.params.glyphSize * ((s.getV x).toNat % 16) ∧ OnlyIndex s t

/-- FX33 (R201): hundreds, tens and units of Vx at I, I + 1 and I + 2, every other byte and I as before; at the first
address out of bounds `OutOfBoundsAccess` is raised, and nothing changes but the latch and the bytes at lower offsets (whose
values no claim may read: R223, D1). -/
def Obligations.DecimalDigitsAreStored : Prop :=
  ∀ (x : Nibble) (s : State), Memory.wf s.params s.mem →
    ((∀ k < 3, validAddr s.params (s.indexed k)) →
      ∃ t, exec (.ldB x) s = .next t ∧
        t.memRead (s.indexed 0) = some (BitVec.ofNat 8 ((s.getV x).toNat / 100)) ∧
        t.memRead (s.indexed 1) = some (BitVec.ofNat 8 ((s.getV x).toNat / 10 % 10)) ∧
        t.memRead (s.indexed 2) = some (BitVec.ofNat 8 ((s.getV x).toNat % 10)) ∧ OnlyIndexedBytes 3 s t) ∧
    (∀ k < 3, FirstOutOfBounds s k →
      ∃ t, exec (.ldB x) s = .next t ∧
        t.fault = some (recordIn s (encode (.ldB x)) .outOfBoundsAccess (some (s.indexed k)) none) ∧
        t = { s with mem := t.mem, fault := t.fault } ∧
        ∀ a : Int, (∀ j < k, a ≠ s.indexed j) → t.memRead a = s.memRead a)

/-- FX55 (R202): V0 to Vx at I to I + x, every other byte and I as before; at the first address out of bounds
`OutOfBoundsAccess` is raised, and nothing changes but the latch and the bytes for lower k (whose values no claim may read:
R223, D1). -/
def Obligations.RegistersAreStored : Prop :=
  ∀ (x : Nibble) (s : State), Memory.wf s.params s.mem →
    ((∀ k < x.toNat + 1, validAddr s.params (s.indexed k)) →
      ∃ t, exec (.storeRegs x) s = .next t ∧
        (∀ r : Nibble, r.toNat ≤ x.toNat → t.memRead (s.indexed r.toNat) = some (s.getV r)) ∧
        OnlyIndexedBytes (x.toNat + 1) s t) ∧
    (∀ k < x.toNat + 1, FirstOutOfBounds s k →
      ∃ t, exec (.storeRegs x) s = .next t ∧
        t.fault = some (recordIn s (encode (.storeRegs x)) .outOfBoundsAccess (some (s.indexed k)) none) ∧
        t = { s with mem := t.mem, fault := t.fault } ∧
        ∀ a : Int, (∀ j < k, a ≠ s.indexed j) → t.memRead a = s.memRead a)

/-- FX65 (R203): V0 to Vx become the bytes at I to I + x, every other register, memory and I as before; at the first address
out of bounds `OutOfBoundsAccess` is raised, and nothing changes but the latch and the registers for lower k (whose values no
claim may read: R223, D1). -/
def Obligations.RegistersAreLoaded : Prop :=
  ∀ (x : Nibble) (s : State),
    ((∀ k < x.toNat + 1, validAddr s.params (s.indexed k)) →
      ∃ t, exec (.loadRegs x) s = .next t ∧
        (∀ r : Nibble, r.toNat ≤ x.toNat → some (t.getV r) = s.memRead (s.indexed r.toNat)) ∧
        (∀ r : Nibble, x.toNat < r.toNat → t.getV r = s.getV r) ∧ t = { s with v := t.v } ∧ SameMemory s t) ∧
    (∀ k < x.toNat + 1, FirstOutOfBounds s k →
      ∃ t, exec (.loadRegs x) s = .next t ∧
        t.fault = some (recordIn s (encode (.loadRegs x)) .outOfBoundsAccess (some (s.indexed k)) none) ∧
        (∀ r : Nibble, k ≤ r.toNat → t.getV r = s.getV r) ∧ t = { s with v := t.v, fault := t.fault } ∧ SameMemory s t)

/-- A byte written by FX33 or FX55 is what a fetch of its address reads in any later step (R68). Byte k of the store stands at
I + k; u is any state that still holds it there, at once or after any number of steps (the state right after the store, with
PC anywhere, is one); a fetch in u whose first or second byte is at I + k gives the byte stored. -/
def Obligations.StoredWordIsFetchedNext : Prop :=
  ∀ (x : Nibble) (k : Nat) (s t u : State) (op : Word), Memory.wf s.params s.mem →
    u.memRead (s.indexed k) = t.memRead (s.indexed k) → u.fetch = .word op →
    (k < 3 → (∀ j < 3, validAddr s.params (s.indexed j)) → exec (.ldB x) s = .next t →
      (u.pc.toInt = s.indexed k → highByte op = bcdDigit (s.getV x) k) ∧
      (u.pc.toInt + 1 = s.indexed k → lowByte op = bcdDigit (s.getV x) k)) ∧
    (k ≤ x.toNat → (∀ j < x.toNat + 1, validAddr s.params (s.indexed j)) → exec (.storeRegs x) s = .next t →
      (u.pc.toInt = s.indexed k → highByte op = s.getV (BitVec.ofNat 4 k)) ∧
      (u.pc.toInt + 1 = s.indexed k → lowByte op = s.getV (BitVec.ofNat 4 k)))

/-! ### Whole-machine rules -/

/-- Only ANNN, FX1E and FX29 write I (R23). -/
def Obligations.OnlyThreeInstructionsWriteI : Prop :=
  ∀ (i : Instr) (s t : State), exec i s = .next t →
    (∀ nnn, i ≠ .ldI nnn) → (∀ x, i ≠ .addI x) → (∀ x, i ≠ .ldF x) → t.i = s.i

/-- Only 2NNN and 00EE access the call stack (R28), and only 00E0 and DXYN write the framebuffer (R30). -/
def Obligations.OnlyCallReturnTouchTheStackOnlyClearDrawTheScreen : Prop :=
  ∀ (i : Instr) (s t : State), exec i s = .next t →
    ((∀ nnn, i ≠ .call nnn) → i ≠ .ret → t.stack = s.stack) ∧
    (i ≠ .cls → (∀ x y n, i ≠ .drw x y n) → t.fb = s.fb)

/-- Only FX33 and FX55 write a byte of memory (R50). -/
def Obligations.OnlyBcdAndBlockStoreWriteMemory : Prop :=
  ∀ (i : Instr) (s t : State), exec i s = .next t →
    (∀ x, i ≠ .ldB x) → (∀ x, i ≠ .storeRegs x) → SameMemory s t

/-- Only FX15 writes DT, only FX18 writes ST, and no instruction sets SOUND_EDGE or ROM_WARN, changes the keyboard, the
host's order or the parameters (R29, R33, R37, R241; D18, D27). -/
def Obligations.InstructionsLeaveTimersAndHostAlone : Prop :=
  ∀ (i : Instr) (s t : State), exec i s = .next t →
    ((∀ x, i ≠ .ldDTVx x) → t.dt = s.dt) ∧ ((∀ x, i ≠ .ldSTVx x) → t.st = s.st) ∧ t.soundEdge = s.soundEdge ∧
      t.romWarn = s.romWarn ∧ t.keys = s.keys ∧ t.schedule = s.schedule ∧ t.later = s.later ∧ t.params = s.params ∧
      t.romOpen = s.romOpen

/-- The errors an instruction can raise itself (R221): `StackUnderflow` 00EE alone, `StackOverflow` 2NNN alone,
`OutOfBoundsAccess` DXYN, FX33, FX55 and FX65 alone, `InvalidOpcode` none; the record names P and the instruction's word. -/
def Obligations.InstructionsRaiseTheirErrorsAlone : Prop :=
  ∀ (i : Instr) (s t : State) (r : FaultRecord), exec i s = .next t → s.fault = none → t.fault = some r →
    r.pc = s.pc - 2#16 ∧ r.opcode = some (encode i) ∧
    ((r.code = .stackUnderflow ∧ i = .ret) ∨ (r.code = .stackOverflow ∧ ∃ nnn, i = .call nnn) ∨
      (r.code = .outOfBoundsAccess ∧ accessesMemory i = true))

/-- Every state of a run meets the invariant: whatever the host's next operation, a step from a state that meets it answers
one that does (R10, R23, R27, R28, R30, R222; the canonical memory and which parameters are an instance are the model's own,
log 3, log 22). -/
def Obligations.StepKeepsTheInvariant : Prop :=
  ∀ s t : State, s.Inv → step s = .next t → t.Inv

/-- A fault-free idle state with nothing to come but STEPs stays exactly as it is (R267; "Idle at A" is the spec's
decision D31). -/
def Obligations.IdleStateStays : Prop :=
  ∀ s : State, s.idle → s.schedule = [] → s.later = .repeats .step [] → s.romOpen = false → step s = .next s

/-! ### The host's operations -/

/-- TICK: each timer goes down by 1 and stays at 0, SOUND_EDGE is whether ST went from 1 to 0, and nothing else changes, the
latch set or not (R224, R240, R241; the spec's decisions D17, D18, D30). -/
def Obligations.TickCountsBothTimersDown : Prop :=
  ∀ s : State, s.nextOp.1 = .tick →
    ∃ t, step s = .next t ∧ t.dt.toNat = s.dt.toNat - 1 ∧ t.st.toNat = s.st.toNat - 1 ∧
      (t.soundEdge = true ↔ s.st = 1#8 ∧ t.st = 0#8) ∧
      t = { s.issued with dt := t.dt, st := t.st, soundEdge := t.soundEdge } ∧ SameMemory s t

/-- The keyboard changes between operations: the ports hold the new key states, and nothing else changes (R37; log 9). -/
def Obligations.KeyChangeTouchesOnlyTheKeyboard : Prop :=
  ∀ (s : State) (keys : Vector Bool 16), s.nextOp.1 = .setKeys keys →
    ∃ t, step s = .next t ∧ (∀ k : Nibble, t.keyPressed k = keys[k.toNat]'k.isLt) ∧
      t = { s.issued with keys := t.keys } ∧ SameMemory s t

/-- LOAD (R61): byte k of the image goes to `PROGRAM_OFFSET` + k where that lies below `MEM_CAPACITY`, every other byte stays,
ROM_WARN is whether the image has at least `MEM_CAPACITY` - `PROGRAM_OFFSET` bytes (3583 for this hardware), and nothing else
changes (the LOAD window closes, log 10). -/
def Obligations.LoadWritesTheImage : Prop :=
  ∀ (s : State) (rom : List Byte), Memory.wf s.params s.mem → s.nextOp.1 = .load rom → s.romOpen = true →
    ∃ t, step s = .next t ∧
      (∀ k (h : k < rom.length), s.params.programOffset + k < s.params.memCapacity →
        t.memRead ((s.params.programOffset + k : Nat) : Int) = some rom[k]) ∧
      (∀ a : Int, (a < s.params.programOffset ∨ (s.params.programOffset : Int) + rom.length ≤ a) →
        t.memRead a = s.memRead a) ∧
      (t.romWarn = true ↔ (s.params.memCapacity : Int) - s.params.programOffset ≤ rom.length) ∧
      t = { s.issued with mem := t.mem, romWarn := t.romWarn, romOpen := false }

/-- RESET from any state of an instance (log 22), faulted or not: PC is `PROGRAM_OFFSET`, the stack empty, every pixel clear,
the latch clear, FONT_TABLE in its place; V, I, DT, ST and every byte outside the font are what the launch gives, the last of
its cells that names an address (R260; the unspecified values are the spec's decisions D3, D4). LOAD may follow (R262,
log 10). Keyboard, random port, parameters and the host's order stay (log 20). -/
def Obligations.ResetGivesTheInitialState : Prop :=
  ∀ (s : State) (l : Launch), paramsWf s.params → s.nextOp.1 = .reset l →
    ∃ t, step s = .next t ∧ t.pc.toNat = s.params.programOffset ∧ t.stack = [] ∧ t.fault = none ∧ t.soundEdge = false ∧
      (∀ x y : Nat, t.readPixel x y = false) ∧
      (∀ k (h : k < s.params.fontTable.length),
        t.memRead ((s.params.fontBase + k : Nat) : Int) = some s.params.fontTable[k]) ∧
      (∀ x : Nibble, t.getV x = l.v[x.toNat]'x.isLt) ∧ t.i.toNat = l.i.toNat ∧ t.dt = l.dt ∧ t.st = l.st ∧
      (∀ (pre post : List Host.Cell) (a : Nat) (b : Byte), l.mem = pre ++ (a, b) :: post → (∀ c ∈ post, c.1 ≠ a) →
        a < s.params.memCapacity → (a < s.params.fontBase ∨ s.params.fontBase + s.params.fontTable.length ≤ a) →
        t.memRead (a : Int) = some b) ∧
      t.romOpen = true ∧ t.keys = s.keys ∧ t.rnd = s.rnd ∧ t.draws = s.draws ∧ t.params = s.params ∧
      t.schedule = s.issued.schedule ∧ t.later = s.issued.later ∧ t.Inv

/-- The state after reset: PC 0x200, no entry on the stack, no pixel set, the latch clear (R24, R28, R30, R32), the 80 bytes
of R59's font from 0x50 on (its bytes are the spec's from general knowledge, log 4), no byte at 0xFFF, this hardware's values
of the parameters (log 13), and the invariant holds. Registers and timers at 0 are the model's choice (log 2). -/
def Obligations.ResetStateMeetsTheInvariant : Prop :=
  State.reset.Inv ∧ State.reset.pc = 0x200#16 ∧ State.reset.stack = [] ∧ State.reset.fault = none ∧
    (∀ x y : Nat, State.reset.readPixel x y = false) ∧ fontTable.length = 80 ∧
    (∀ k (h : k < fontTable.length), State.reset.memRead ((0x50 + k : Nat) : Int) = some fontTable[k]) ∧
    State.reset.memRead 0xFFF = none ∧
    State.reset.params = ⟨4095, 0x200, 0x50, 16, 5, fontTable, 64, 32, none, false⟩

/-- The operations come in the host's order (R65, R242): a step takes the first of the schedule; with the schedule at its end,
the first of the operations that repeat, the others after it, or the next free value (log 6); and no operation, STEP, TICK,
LOAD and RESET among them, changes what is still to come. -/
def Obligations.OperationsComeInTheHostsOrder : Prop :=
  ∀ s t : State, step s = .next t →
    t.schedule = s.issued.schedule ∧ t.later = s.issued.later ∧
    (∀ (op : HostOp) (ops : List HostOp), s.schedule = op :: ops →
      s.nextOp.1 = op ∧ t.schedule = ops ∧ t.later = s.later) ∧
    (∀ (op : HostOp) (ops : List HostOp), s.schedule = [] → s.later = .repeats op ops →
      s.nextOp.1 = op ∧ t.schedule = ops ∧ t.later = s.later) ∧
    (∀ n : Nat, s.schedule = [] → s.later = .free n →
      s.nextOp.1 = .ofRun (Config.hostOp n) ∧ t.schedule = [] ∧ t.later = .free (n + 1))

/-- "Any finite or infinite sequence of STEP and TICK operations is a possible run" (R242). The run whose host repeats a list
of operations without a LOAD goes on for ever, and its operation number n is the list's number n modulo its length: STEP, TICK
for ever is one. The run of a free host goes on for ever too, and its operation number n is a free value (log 6). -/
def Obligations.RunsGoOnForEver : Prop :=
  ∀ (s : State) (n : Nat), s.schedule = [] →
    (∀ (op : HostOp) (ops : List HostOp), s.later = .repeats op ops → (∀ rom, HostOp.load rom ∉ op :: ops) →
      ∃ t, s.runFor n = some t ∧ (op :: ops)[n % (ops.length + 1)]? = some t.nextOp.1) ∧
    (∀ m : Nat, s.later = .free m → ∃ t, s.runFor n = some t ∧ t.nextOp.1 = .ofRun (Config.hostOp (m + n)))
end

