-- ==== Sys2Proof/Laws/Decode.lean ====
section
/-! SUPPORT. The fields of encoded words, words rebuilt from their fields, and what `op & mask = match` says of the fields
(30_encoding.md R81, R84). -/

namespace Sys2Proof

open BitVec

/-! ### The fields of a word put together from four nibbles -/

section Fields

variable (c x y n : Nibble) (nn : Byte) (nnn : Addr12)

@[simp] theorem fieldC_xyn : fieldC (c ++ x ++ y ++ n) = c := by
  apply eq_of_getLsbD_eq; intro i hi
  simp only [fieldC, getLsbD_extractLsb', getLsbD_append, hi]
  rcases i with _ | _ | _ | _ | i <;> first | omega | simp

@[simp] theorem fieldX_xyn : fieldX (c ++ x ++ y ++ n) = x := by
  apply eq_of_getLsbD_eq; intro i hi
  simp only [fieldX, getLsbD_extractLsb', getLsbD_append, hi]
  rcases i with _ | _ | _ | _ | i <;> first | omega | simp

@[simp] theorem fieldY_xyn : fieldY (c ++ x ++ y ++ n) = y := by
  apply eq_of_getLsbD_eq; intro i hi
  simp only [fieldY, getLsbD_extractLsb', getLsbD_append, hi]
  rcases i with _ | _ | _ | _ | i <;> first | omega | simp

@[simp] theorem fieldN_xyn : fieldN (c ++ x ++ y ++ n) = n := by
  apply eq_of_getLsbD_eq; intro i hi
  simp only [fieldN, getLsbD_extractLsb', getLsbD_append, hi]
  rcases i with _ | _ | _ | _ | i <;> first | omega | simp

@[simp] theorem fieldC_xnn : fieldC (c ++ x ++ nn) = c := by
  apply eq_of_getLsbD_eq; intro i hi
  simp only [fieldC, getLsbD_extractLsb', getLsbD_append, hi]
  rcases i with _ | _ | _ | _ | i <;> first | omega | simp

@[simp] theorem fieldX_xnn : fieldX (c ++ x ++ nn) = x := by
  apply eq_of_getLsbD_eq; intro i hi
  simp only [fieldX, getLsbD_extractLsb', getLsbD_append, hi]
  rcases i with _ | _ | _ | _ | i <;> first | omega | simp

@[simp] theorem fieldNN_xnn : fieldNN (c ++ x ++ nn) = nn := by
  apply eq_of_getLsbD_eq; intro i hi
  simp only [fieldNN, getLsbD_extractLsb', getLsbD_append, hi]
  simp [hi]

@[simp] theorem fieldC_nnn : fieldC (c ++ nnn) = c := by
  apply eq_of_getLsbD_eq; intro i hi
  simp only [fieldC, getLsbD_extractLsb', getLsbD_append, hi]
  rcases i with _ | _ | _ | _ | i <;> first | omega | simp

@[simp] theorem fieldNNN_nnn : fieldNNN (c ++ nnn) = nnn := by
  apply eq_of_getLsbD_eq; intro i hi
  simp only [fieldNNN, getLsbD_extractLsb', getLsbD_append, hi]
  simp [hi]

end Fields

/-! ### A word is its fields -/

theorem nn_eq_yn (op : Word) : fieldNN op = fieldY op ++ fieldN op := by
  have h := extractLsb'_append_extractLsb'_eq_extractLsb' (x := op) (start₁ := 0) (len₁ := 4) (start₂ := 4) (len₂ := 4) rfl
  exact h.symm

theorem nnn_eq_xnn (op : Word) : fieldNNN op = fieldX op ++ fieldNN op := by
  have h := extractLsb'_append_extractLsb'_eq_extractLsb' (x := op) (start₁ := 0) (len₁ := 8) (start₂ := 8) (len₂ := 4) rfl
  exact h.symm

theorem word_eq_nnn (op : Word) : fieldC op ++ fieldNNN op = op :=
  (extractLsb'_append_extractLsb'_eq_extractLsb' (by rfl)).trans extractLsb'_eq_self

theorem word_eq_xnn (op : Word) : fieldC op ++ fieldX op ++ fieldNN op = op := by
  have h : fieldC op ++ fieldX op = op.extractLsb' 8 8 := extractLsb'_append_extractLsb'_eq_extractLsb' (by rfl)
  rw [h]
  exact (extractLsb'_append_extractLsb'_eq_extractLsb' (by rfl)).trans extractLsb'_eq_self

theorem word_eq_xyn (op : Word) : fieldC op ++ fieldX op ++ fieldY op ++ fieldN op = op := by
  have h : fieldC op ++ fieldX op = op.extractLsb' 8 8 := extractLsb'_append_extractLsb'_eq_extractLsb' (by rfl)
  have h2 : op.extractLsb' 8 8 ++ fieldY op = op.extractLsb' 4 12 := extractLsb'_append_extractLsb'_eq_extractLsb' (by rfl)
  rw [h, h2]
  exact (extractLsb'_append_extractLsb'_eq_extractLsb' (by rfl)).trans extractLsb'_eq_self

/-- The two bytes of a word put together again (R55). -/
@[simp] theorem wordOfBytes_high_low (op : Word) : wordOfBytes (highByte op) (lowByte op) = op :=
  (extractLsb'_append_extractLsb'_eq_extractLsb' (by rfl)).trans extractLsb'_eq_self

/-! ### Masks -/

theorem and_F000 (op : Word) : op &&& 0xF000#16 = fieldC op ++ 0#12 := by
  have h : (0xF000#16 : Word) = 0xF#4 ++ 0#12 := by decide
  have hc : fieldC op &&& 0xF#4 = fieldC op := by
    rw [show (0xF#4 : Nibble) = allOnes 4 by decide, and_allOnes]
  conv_lhs => rw [← word_eq_nnn op, h]
  rw [and_append, hc, and_zero]

theorem and_F00F (op : Word) : op &&& 0xF00F#16 = fieldC op ++ 0#4 ++ 0#4 ++ fieldN op := by
  have h : (0xF00F#16 : Word) = 0xF#4 ++ 0#4 ++ 0#4 ++ 0xF#4 := by decide
  have hc : ∀ c : Nibble, c &&& 0xF#4 = c := fun c => by
    rw [show (0xF#4 : Nibble) = allOnes 4 by decide, and_allOnes]
  conv_lhs => rw [← word_eq_xyn op, h]
  rw [and_append, and_append, and_append, hc, hc, and_zero, and_zero]

theorem and_F0FF (op : Word) : op &&& 0xF0FF#16 = fieldC op ++ 0#4 ++ fieldNN op := by
  have h : (0xF0FF#16 : Word) = 0xF#4 ++ 0#4 ++ 0xFF#8 := by decide
  have hc : fieldC op &&& 0xF#4 = fieldC op := by
    rw [show (0xF#4 : Nibble) = allOnes 4 by decide, and_allOnes]
  have hn : fieldNN op &&& 0xFF#8 = fieldNN op := by
    rw [show (0xFF#8 : Byte) = allOnes 8 by decide, and_allOnes]
  conv_lhs => rw [← word_eq_xnn op, h]
  rw [and_append, and_append, hc, hn, and_zero]

/-- A row with mask 0xF000 fixes the category. -/
theorem match_F000 (op : Word) (c : Nibble) : op &&& 0xF000#16 = c ++ 0#12 ↔ fieldC op = c := by
  rw [and_F000]
  exact ⟨fun h => by simpa using congrArg fieldC h, fun h => by rw [h]⟩

/-- A row with mask 0xF00F fixes the category and the low nibble. -/
theorem match_F00F (op : Word) (c n : Nibble) :
    op &&& 0xF00F#16 = c ++ 0#4 ++ 0#4 ++ n ↔ fieldC op = c ∧ fieldN op = n := by
  rw [and_F00F]
  refine ⟨fun h => ⟨?_, ?_⟩, fun ⟨h1, h2⟩ => by rw [h1, h2]⟩
  · simpa using congrArg fieldC h
  · simpa using congrArg fieldN h

/-- A row with mask 0xF0FF fixes the category and the low byte. -/
theorem match_F0FF (op : Word) (c : Nibble) (nn : Byte) :
    op &&& 0xF0FF#16 = c ++ 0#4 ++ nn ↔ fieldC op = c ∧ fieldNN op = nn := by
  rw [and_F0FF]
  refine ⟨fun h => ⟨?_, ?_⟩, fun ⟨h1, h2⟩ => by rw [h1, h2]⟩
  · simpa using congrArg fieldC h
  · simpa using congrArg fieldNN h

/-! ### What the decoder answers -/

/-- The decoder answers an instruction exactly where its two levels find one. -/
theorem decode_eq_instr {strict : Bool} {op : Word} {i : Instr} :
    decode strict op = .instr i ↔ decodeCategory strict op = some i := by
  unfold decode; cases decodeCategory strict op <;> simp

/-- The decoder rejects a word exactly where its two levels find nothing, and names the word. -/
theorem decode_eq_invalid {strict : Bool} {op w : Word} :
    decode strict op = .invalidOpcode w ↔ decodeCategory strict op = none ∧ w = op := by
  unfold decode; cases decodeCategory strict op <;> simp [eq_comm]

/-- Every word decodes to an instruction or is rejected by name (R89). -/
theorem decode_total (strict : Bool) (op : Word) :
    (∃ i, decode strict op = .instr i) ∨ decode strict op = .invalidOpcode op := by
  unfold decode; cases decodeCategory strict op <;> simp

end Sys2Proof
end

