-- ==== Sys2Proof/Laws/Framebuffer.lean ====
section
/-! SUPPORT. The framebuffer: a pixel read after a pixel write, and `DrawByte` as the picture it draws (R162). -/

namespace Sys2Proof.Machine

variable {P : Params}

theorem pixel_setPixel {fb : Framebuffer} (hf : Framebuffer.wf P fb) {x y : Nat} (hx : x < P.fbWidth) (hy : y < P.fbHeight)
    (x' y' : Nat) (v : Bool) :
    Framebuffer.pixel (Framebuffer.setPixel fb x y v) x' y' =
      if x = x' ∧ y = y' then v else Framebuffer.pixel fb x' y' := by
  have hy' : y < fb.length := hf.1.symm ▸ hy
  have hx' : x < fb[y].length := (hf.2 _ (List.getElem_mem hy')).symm ▸ hx
  simp only [Framebuffer.pixel, Framebuffer.setPixel, List.getD_eq_getElem?_getD, List.getElem?_set]
  by_cases h : y = y'
  · subst h
    simp only [hy', if_true, Option.getD_some, List.getElem?_eq_getElem hy', List.getElem?_set]
    by_cases h' : x = x'
    · subst h'; simp [hx']
    · simp [h']
  · simp [h]

theorem setPixel_wf {fb : Framebuffer} (hf : Framebuffer.wf P fb) (x y : Nat) (v : Bool) :
    Framebuffer.wf P (Framebuffer.setPixel fb x y v) := by
  refine ⟨by simp [Framebuffer.setPixel, hf.1], fun row hr => ?_⟩
  by_cases hy : y < fb.length
  · rcases List.mem_or_eq_of_mem_set hr with hr | rfl
    · exact hf.2 row hr
    · rw [List.length_set, List.getD_eq_getElem _ _ hy]
      exact hf.2 _ (List.getElem_mem hy)
  · rw [Framebuffer.setPixel, List.set_eq_of_length_le (by omega)] at hr
    exact hf.2 row hr

theorem clear_wf : Framebuffer.wf P (clearFramebuffer P) := by
  refine ⟨by simp [clearFramebuffer], fun row hr => ?_⟩
  rw [List.eq_of_mem_replicate hr]; simp

@[simp] theorem pixel_clear (x y : Nat) : Framebuffer.pixel (clearFramebuffer P) x y = false := by
  simp only [Framebuffer.pixel, clearFramebuffer, List.getD_eq_getElem?_getD, List.getElem?_replicate]
  by_cases hy : y < P.fbHeight
  · by_cases hx : x < P.fbWidth <;> simp [hx, hy]
  · simp [hy]

/-- A position outside the grid reads false. -/
theorem pixel_outside {fb : Framebuffer} (hf : Framebuffer.wf P fb) {x y : Nat} (h : ¬ (x < P.fbWidth ∧ y < P.fbHeight)) :
    Framebuffer.pixel fb x y = false := by
  simp only [Framebuffer.pixel, List.getD_eq_getElem?_getD]
  by_cases hy : y < fb.length
  · have hl := hf.2 _ (List.getElem_mem hy)
    have : fb[y].length ≤ x := by have := hf.1; omega
    simp [hy, List.getElem?_eq_none this]
  · simp [hy]

/-- What column i of a row does (R162): the pixel at column x + i is toggled where the sprite bit is 1. -/
theorem pixel_drawBit (x y : Nat) (b : Byte) (i : Nat) {fc : Framebuffer × Bool} (hf : Framebuffer.wf P fc.1) (px py : Nat)
    (hx : x + i < P.fbWidth) (hy : y < P.fbHeight) :
    Framebuffer.pixel (drawBit x y b i fc).1 px py =
      ((Framebuffer.pixel fc.1 px py) ^^ (decide (px = x + i ∧ py = y) && b.getLsbD (7 - i))) := by
  unfold drawBit
  by_cases hb : b.getLsbD (7 - i)
  · by_cases hp : px = x + i ∧ py = y
    · obtain ⟨rfl, rfl⟩ := hp
      by_cases hs : Framebuffer.pixel fc.1 (x + i) py <;> simp [hb, hs, pixel_setPixel hf hx hy]
    · have hp' : ¬ (x + i = px ∧ y = py) := by
        rintro ⟨rfl, rfl⟩; exact hp ⟨rfl, rfl⟩
      by_cases hs : Framebuffer.pixel fc.1 (x + i) y <;> simp [hb, hs, pixel_setPixel hf hx hy, hp', hp]
  · simp [hb]

/-- A column collides when its sprite bit is 1 and its pixel is set; an earlier collision stays. -/
theorem collided_drawBit (x y : Nat) (b : Byte) (i : Nat) (fc : Framebuffer × Bool) :
    (drawBit x y b i fc).2 = (fc.2 || (b.getLsbD (7 - i) && Framebuffer.pixel fc.1 (x + i) y)) := by
  unfold drawBit
  by_cases hb : b.getLsbD (7 - i)
  · by_cases hs : Framebuffer.pixel fc.1 (x + i) y <;> simp [hb, hs]
  · simp [hb]

/-- A column leaves the grid a grid. -/
theorem drawBit_wf (x y : Nat) (b : Byte) (i : Nat) {fc : Framebuffer × Bool} (hf : Framebuffer.wf P fc.1) :
    Framebuffer.wf P (drawBit x y b i fc).1 := by
  unfold drawBit
  split
  · split <;> exact setPixel_wf hf _ _ _
  · exact hf

theorem countUp_drawBit_wf (x y : Nat) (b : Byte) (n k : Nat) {fc : Framebuffer × Bool} (hf : Framebuffer.wf P fc.1) :
    Framebuffer.wf P (countUp (drawBit x y b) k n fc).1 := by
  induction n generalizing k fc with
  | zero => exact hf
  | succ n ih => exact ih (k + 1) (drawBit_wf x y b k hf)

/-- `DrawByte` leaves the grid a grid. -/
theorem drawByte_wf {fb : Framebuffer} (hf : Framebuffer.wf P fb) (x y : Nat) (b : Byte) :
    Framebuffer.wf P (drawByte P fb x y b).1 := by
  unfold drawByte
  split
  · exact hf
  · exact countUp_drawBit_wf x y b _ 0 hf

/-- Columns k to k + n - 1 of a row, all on the grid: the picture they leave, and whether one of them collided. -/
theorem countUp_drawBit (x y : Nat) (b : Byte) (hy : y < P.fbHeight) (n k : Nat)
    (hx : x + (k + n) ≤ P.fbWidth) {fc : Framebuffer × Bool} (hf : Framebuffer.wf P fc.1) :
    (∀ px py, Framebuffer.pixel (countUp (drawBit x y b) k n fc).1 px py =
      ((Framebuffer.pixel fc.1 px py) ^^
        (decide (py = y ∧ x + k ≤ px ∧ px < x + (k + n)) && b.getLsbD (7 - (px - x))))) ∧
    ((countUp (drawBit x y b) k n fc).2 = true ↔
      fc.2 = true ∨ ∃ px, x + k ≤ px ∧ px < x + (k + n) ∧ b.getLsbD (7 - (px - x)) = true ∧
        Framebuffer.pixel fc.1 px y = true) := by
  induction n generalizing k fc with
  | zero =>
    refine ⟨fun px py => ?_, ?_⟩
    · have : ¬ (py = y ∧ x + k ≤ px ∧ px < x + (k + 0)) := by omega
      simp only [countUp, decide_eq_false this, Bool.false_and, Bool.xor_false]
    · simp only [countUp]
      exact ⟨.inl, fun h => h.resolve_right fun ⟨px, h1, h2, _⟩ => by omega⟩
  | succ n ih =>
    obtain ⟨ih1, ih2⟩ := ih (k + 1) (by omega) (drawBit_wf x y b k hf)
    have hk : x + k < P.fbWidth := by omega
    refine ⟨fun px py => ?_, ?_⟩
    · show Framebuffer.pixel (countUp (drawBit x y b) (k + 1) n (drawBit x y b k fc)).1 px py = _
      rw [ih1, pixel_drawBit x y b k hf px py hk hy]
      by_cases hpy : py = y
      · by_cases hpx : px = x + k
        · subst hpx
          have h1 : ¬ (x + (k + 1) ≤ x + k) := by omega
          have h2 : x + k - x = k := by omega
          have h3 : x + k < x + (k + (n + 1)) := by omega
          simp [hpy, h1, h2, h3]
        · have h1 : (x + (k + 1) ≤ px ∧ px < x + (k + 1 + n)) ↔ (x + k ≤ px ∧ px < x + (k + (n + 1))) := by omega
          simp [hpy, hpx, h1]
      · simp [hpy]
    · show (countUp (drawBit x y b) (k + 1) n (drawBit x y b k fc)).2 = true ↔ _
      rw [ih2, collided_drawBit]
      have pix : ∀ px, x + (k + 1) ≤ px → Framebuffer.pixel (drawBit x y b k fc).1 px y = Framebuffer.pixel fc.1 px y := by
        intro px h
        rw [pixel_drawBit x y b k hf px y hk hy]
        simp [show px ≠ x + k by omega]
      constructor
      · rintro (h | ⟨px, h1, h2, h3, h4⟩)
        · rcases (Bool.or_eq_true _ _).mp h with h | h
          · exact .inl h
          · rw [Bool.and_eq_true] at h
            exact .inr ⟨x + k, by omega, by omega, by rw [show x + k - x = k by omega]; exact h.1, h.2⟩
        · exact .inr ⟨px, by omega, by omega, h3, pix px h1 ▸ h4⟩
      · rintro (h | ⟨px, h1, h2, h3, h4⟩)
        · exact .inl (by simp [h])
        · by_cases hpx : px = x + k
          · subst hpx
            rw [show x + k - x = k by omega] at h3
            exact .inl (by simp [h3, h4])
          · exact .inr ⟨px, by omega, by omega, h3, (pix px (by omega)).symm ▸ h4⟩

/-- `DrawByte` as a picture (R162): on the grid, the pixels of the row's eight columns are toggled where the byte has a 1
bit, bit 7 leftmost; the result is whether one of them was set. -/
theorem drawByte_spec {fb : Framebuffer} (hf : Framebuffer.wf P fb) (x y : Nat) (b : Byte) :
    (∀ px py, px < P.fbWidth → py < P.fbHeight → Framebuffer.pixel (drawByte P fb x y b).1 px py =
      ((Framebuffer.pixel fb px py) ^^ (decide (py = y ∧ x ≤ px ∧ px < x + 8) && b.getLsbD (7 - (px - x))))) ∧
    ((drawByte P fb x y b).2 = true ↔
      ∃ px, px < P.fbWidth ∧ y < P.fbHeight ∧ x ≤ px ∧ px < x + 8 ∧ b.getLsbD (7 - (px - x)) = true ∧
        Framebuffer.pixel fb px y = true) := by
  unfold drawByte
  split
  · rename_i h
    refine ⟨fun px py _ hpy => ?_, ?_⟩
    · simp [show py ≠ y by omega]
    · simp only [Bool.false_eq_true, false_iff]
      rintro ⟨px, _, h2, _⟩
      omega
  · rename_i h
    by_cases hx : x ≤ P.fbWidth
    · obtain ⟨h1, h2⟩ := countUp_drawBit x y b (by omega) (min 8 (P.fbWidth - x)) 0 (by omega) (fc := (fb, false)) hf
      refine ⟨fun px py hpx _ => ?_, h2.trans ?_⟩
      · rw [h1]
        have : (py = y ∧ x + 0 ≤ px ∧ px < x + (0 + min 8 (P.fbWidth - x))) ↔ (py = y ∧ x ≤ px ∧ px < x + 8) := by omega
        simp only [this]
      · constructor
        · rintro (h | ⟨px, a1, a2, a3, a4⟩)
          · cases h
          · exact ⟨px, by omega, by omega, by omega, by omega, a3, a4⟩
        · rintro ⟨px, a1, a2, a3, a4, a5, a6⟩
          exact .inr ⟨px, by omega, by omega, a5, a6⟩
    · have h0 : P.fbWidth - x = 0 := by omega
      refine ⟨fun px py hpx _ => ?_, ?_⟩
      · simp [h0, countUp, show ¬ x ≤ px by omega]
      · simp only [h0, Nat.min_zero, countUp, Bool.false_eq_true, false_iff]
        rintro ⟨px, a1, _, a3, _⟩
        omega

end Sys2Proof.Machine
end

