-- ==== Sys2Proof/Laws/State.lean ====
section
/-! SUPPORT. One lemma per field per update of State, and how register reads see register writes. -/

namespace Sys2Proof.Machine

variable (s : State) (x y : Nibble) (b : Byte) (a : Word) (f : Bool) (r : FaultRecord)

/-! ### Reading a register after writing one -/

theorem getV_setV : (s.setV x b).getV y = if x = y then b else s.getV y := by
  simp [State.getV, State.setV, Vector.getElem_set, ← BitVec.toNat_inj]

@[simp] theorem getV_setV_self : (s.setV x b).getV x = b := by simp [getV_setV]

theorem getV_setV_of_ne (h : x ≠ y) : (s.setV x b).getV y = s.getV y := by simp [getV_setV, h]

@[simp] theorem getV_setVFlag_flag : (s.setVFlag x b f).getV flagReg = flagByte f := by
  simp [State.setVFlag, State.setFlag]

theorem getV_setVFlag_dest (h : x ≠ flagReg) : (s.setVFlag x b f).getV x = b := by
  simp [State.setVFlag, State.setFlag, getV_setV, Ne.symm h]

theorem getV_setVFlag_of_ne (hx : x ≠ y) (hf : flagReg ≠ y) : (s.setVFlag x b f).getV y = s.getV y := by
  simp [State.setVFlag, State.setFlag, getV_setV, hx, hf]

/-! ### setV -/

@[simp] theorem setV_i : (s.setV x b).i = s.i := rfl
@[simp] theorem setV_pc : (s.setV x b).pc = s.pc := rfl
@[simp] theorem setV_stack : (s.setV x b).stack = s.stack := rfl
@[simp] theorem setV_dt : (s.setV x b).dt = s.dt := rfl
@[simp] theorem setV_st : (s.setV x b).st = s.st := rfl
@[simp] theorem setV_fb : (s.setV x b).fb = s.fb := rfl
@[simp] theorem setV_mem : (s.setV x b).mem = s.mem := rfl
@[simp] theorem setV_fault : (s.setV x b).fault = s.fault := rfl
@[simp] theorem setV_soundEdge : (s.setV x b).soundEdge = s.soundEdge := rfl
@[simp] theorem setV_romWarn : (s.setV x b).romWarn = s.romWarn := rfl
@[simp] theorem setV_keys : (s.setV x b).keys = s.keys := rfl
@[simp] theorem setV_rnd : (s.setV x b).rnd = s.rnd := rfl
@[simp] theorem setV_params : (s.setV x b).params = s.params := rfl
@[simp] theorem setV_schedule : (s.setV x b).schedule = s.schedule := rfl
@[simp] theorem setV_later : (s.setV x b).later = s.later := rfl
@[simp] theorem setV_romOpen : (s.setV x b).romOpen = s.romOpen := rfl
@[simp] theorem setV_draws : (s.setV x b).draws = s.draws := rfl
@[simp] theorem setV_memRead (k : Int) : (s.setV x b).memRead k = s.memRead k := rfl
@[simp] theorem setV_indexed (k : Nat) : (s.setV x b).indexed k = s.indexed k := rfl

/-- A register write changes the register file and nothing else. -/
theorem setV_eq : s.setV x b = { s with v := (s.setV x b).v } := rfl

/-- A result and a flag change the register file and nothing else. -/
theorem setVFlag_eq : s.setVFlag x b f = { s with v := (s.setVFlag x b f).v } := rfl

/-! ### setPc and skipIf -/

@[simp] theorem setPc_pc : (s.setPc a).pc = a := rfl
@[simp] theorem setPc_v : (s.setPc a).v = s.v := rfl
@[simp] theorem setPc_i : (s.setPc a).i = s.i := rfl
@[simp] theorem setPc_stack : (s.setPc a).stack = s.stack := rfl
@[simp] theorem setPc_dt : (s.setPc a).dt = s.dt := rfl
@[simp] theorem setPc_st : (s.setPc a).st = s.st := rfl
@[simp] theorem setPc_fb : (s.setPc a).fb = s.fb := rfl
@[simp] theorem setPc_mem : (s.setPc a).mem = s.mem := rfl
@[simp] theorem setPc_fault : (s.setPc a).fault = s.fault := rfl
@[simp] theorem setPc_soundEdge : (s.setPc a).soundEdge = s.soundEdge := rfl
@[simp] theorem setPc_params : (s.setPc a).params = s.params := rfl
@[simp] theorem setPc_getV : (s.setPc a).getV x = s.getV x := rfl
@[simp] theorem setPc_memRead (k : Int) : (s.setPc a).memRead k = s.memRead k := rfl

theorem skipIf_pc (p : Bool) : (s.skipIf p).pc = if p then s.pc + 2#16 else s.pc := by
  cases p <;> rfl

/-- A conditional skip changes PC and nothing else. -/
theorem skipIf_eq (p : Bool) : s.skipIf p = { s with pc := (s.skipIf p).pc } := by
  cases p <;> rfl

/-! ### setI -/

@[simp] theorem setI_i : (s.setI a).i = a := rfl
@[simp] theorem setI_v : (s.setI a).v = s.v := rfl
@[simp] theorem setI_pc : (s.setI a).pc = s.pc := rfl
@[simp] theorem setI_stack : (s.setI a).stack = s.stack := rfl
@[simp] theorem setI_mem : (s.setI a).mem = s.mem := rfl
@[simp] theorem setI_fault : (s.setI a).fault = s.fault := rfl
@[simp] theorem setI_params : (s.setI a).params = s.params := rfl

/-! ### setMem, setFb -/

@[simp] theorem setMem_mem (m : Memory) : (s.setMem m).mem = m := rfl
@[simp] theorem setMem_params (m : Memory) : (s.setMem m).params = s.params := rfl
@[simp] theorem setMem_i (m : Memory) : (s.setMem m).i = s.i := rfl
@[simp] theorem setMem_indexed (m : Memory) (k : Nat) : (s.setMem m).indexed k = s.indexed k := rfl
@[simp] theorem setMem_getV (m : Memory) : (s.setMem m).getV x = s.getV x := rfl
@[simp] theorem setFb_fb (fb : Framebuffer) : (s.setFb fb).fb = fb := rfl
@[simp] theorem setFb_params (fb : Framebuffer) : (s.setFb fb).params = s.params := rfl
@[simp] theorem setFb_mem (fb : Framebuffer) : (s.setFb fb).mem = s.mem := rfl
@[simp] theorem setFb_indexed (fb : Framebuffer) (k : Nat) : (s.setFb fb).indexed k = s.indexed k := rfl
@[simp] theorem setFb_getV (fb : Framebuffer) : (s.setFb fb).getV x = s.getV x := rfl

/-! ### Raising an error -/

@[simp] theorem raise_fault : (s.raise r).fault = some r := rfl
@[simp] theorem raise_v : (s.raise r).v = s.v := rfl
@[simp] theorem raise_i : (s.raise r).i = s.i := rfl
@[simp] theorem raise_pc : (s.raise r).pc = s.pc := rfl
@[simp] theorem raise_stack : (s.raise r).stack = s.stack := rfl
@[simp] theorem raise_dt : (s.raise r).dt = s.dt := rfl
@[simp] theorem raise_st : (s.raise r).st = s.st := rfl
@[simp] theorem raise_fb : (s.raise r).fb = s.fb := rfl
@[simp] theorem raise_mem : (s.raise r).mem = s.mem := rfl
@[simp] theorem raise_soundEdge : (s.raise r).soundEdge = s.soundEdge := rfl
@[simp] theorem raise_params : (s.raise r).params = s.params := rfl
@[simp] theorem raise_getV : (s.raise r).getV x = s.getV x := rfl

/-- RESULT is `ERR(r)` exactly while the latch holds r. -/
theorem result_eq_err : s.result = .err r ↔ s.fault = some r := by
  unfold State.result; cases s.fault <;> simp

/-- RESULT is `OK` exactly while the latch is clear. -/
theorem result_eq_ok : s.result = .ok ↔ s.fault = none := by
  unfold State.result; cases s.fault <;> simp

end Sys2Proof.Machine
end

