-- ==== Sys2Proof/Laws/Memory.lean ====
section
/-! SUPPORT. The byte memory: a read after a write, and the canonical form every operation keeps. -/

namespace Sys2Proof.Machine

variable {P : Params}

theorem get_cons (a : Nat) (b : Byte) (m : Memory) (c : Nat) (h : c = a → Memory.get P m c = blankByte P c) :
    Memory.get P (Memory.cons P a b m) c = if c = a then b else Memory.get P m c := by
  unfold Memory.cons
  split
  · rename_i hb
    split
    · rename_i hc; rw [h hc, hb, hc]
    · rfl
  · rfl

/-- An address below every listed one reads as blank. -/
theorem get_of_lt (m : Memory) (a : Nat) (h : ∀ c ∈ m, a < c.1) : Memory.get P m a = blankByte P a := by
  induction m with
  | nil => rfl
  | cons p m ih =>
    obtain ⟨k, b⟩ := p
    have hk : a < k := h (k, b) (by simp)
    simp only [Memory.get, show a ≠ k by omega, if_false]
    exact ih fun c hc => h c (by simp [hc])

/-- A read after a write: the byte written at its address, the byte before at every other. -/
theorem get_set (m : Memory) (hm : m.Pairwise (fun p q => p.1 < q.1)) (a : Nat) (b : Byte) (c : Nat) :
    Memory.get P (Memory.set P m a b) c = if c = a then b else Memory.get P m c := by
  induction m with
  | nil => exact get_cons a b [] c fun _ => rfl
  | cons p m ih =>
    obtain ⟨k, d⟩ := p
    rw [List.pairwise_cons] at hm
    simp only [Memory.set]
    split
    · rename_i hlt
      refine get_cons a b _ c fun hc => get_of_lt _ _ fun q hq => ?_
      rcases List.mem_cons.1 hq with rfl | hq
      · simp [hc, hlt]
      · have := hm.1 q hq; simp only at this; omega
    · split
      · rename_i hk
        rw [get_cons a b m c fun hc => get_of_lt _ _ fun q hq => by
          have := hm.1 q hq; simp only at this; omega]
        by_cases hc : c = a <;> simp [Memory.get, hc, ← hk]
      · rename_i hlt hk
        simp only [Memory.get, ih hm.2]
        by_cases hc : c = a
        · simp [hc, hk]
        · simp [hc]

/-- Every address of a memory after a write was listed before, or is the one written. -/
theorem mem_set {m : Memory} {a : Nat} {b : Byte} {c : Host.Cell} (h : c ∈ Memory.set P m a b) :
    c ∈ m ∨ (c = (a, b) ∧ b ≠ blankByte P a) := by
  induction m with
  | nil =>
    simp only [Memory.set, Memory.cons] at h
    split at h <;> simp_all
  | cons p m ih =>
    obtain ⟨k, d⟩ := p
    simp only [Memory.set, Memory.cons] at h
    split at h
    · split at h <;> simp_all
      tauto
    · split at h
      · split at h <;> simp_all
        tauto
      · rcases List.mem_cons.1 h with rfl | h
        · simp
        · rcases ih h with h | h
          · exact .inl (List.mem_cons_of_mem _ h)
          · exact .inr h

/-- A write keeps the canonical form. -/
theorem set_wf {m : Memory} (hm : Memory.wf P m) {a : Nat} (ha : a < P.memCapacity) (b : Byte) :
    Memory.wf P (Memory.set P m a b) := by
  refine ⟨?_, fun c hc => ?_⟩
  · have hs := hm.1
    clear hm
    induction m with
    | nil => simp only [Memory.set, Memory.cons]; split <;> simp
    | cons p m ih =>
      obtain ⟨k, d⟩ := p
      have hs' := List.pairwise_cons.1 hs
      simp only [Memory.set, Memory.cons]
      split
      · rename_i hlt
        split
        · exact hs
        · refine List.pairwise_cons.2 ⟨fun q hq => ?_, hs⟩
          rcases List.mem_cons.1 hq with rfl | hq
          · exact hlt
          · exact Nat.lt_trans hlt (hs'.1 q hq)
      · split
        · rename_i hk
          split
          · exact hs'.2
          · exact List.pairwise_cons.2 ⟨fun q hq => hk ▸ hs'.1 q hq, hs'.2⟩
        · rename_i hlt hk
          refine List.pairwise_cons.2 ⟨fun q hq => ?_, ih hs'.2⟩
          rcases mem_set hq with hq | ⟨rfl, -⟩
          · exact hs'.1 q hq
          · show k < a; omega
  · rcases mem_set hc with hc | ⟨rfl, hb⟩
    · exact hm.2 c hc
    · exact ⟨ha, hb⟩

theorem setRun_wf {m : Memory} (hm : Memory.wf P m) (a : Nat) (bs : List Byte) : Memory.wf P (Memory.setRun P m a bs) := by
  induction bs generalizing m a with
  | nil => exact hm
  | cons b bs ih =>
    simp only [Memory.setRun]
    split
    · exact ih (set_wf hm ‹_› b) _
    · exact ih hm _

theorem ofCells_wf {m : Memory} (hm : Memory.wf P m) (cs : List Host.Cell) : Memory.wf P (Memory.ofCells P m cs) := by
  induction cs generalizing m with
  | nil => exact hm
  | cons c cs ih =>
    simp only [Memory.ofCells]
    split
    · exact ih (set_wf hm ‹_› _)
    · exact ih hm

/-- Writing a run of bytes leaves every address below it alone. -/
theorem get_setRun_of_lt {m : Memory} (hm : Memory.wf P m) (a : Nat) (bs : List Byte) {c : Nat} (hc : c < a) :
    Memory.get P (Memory.setRun P m a bs) c = Memory.get P m c := by
  induction bs generalizing m a with
  | nil => rfl
  | cons b bs ih =>
    simp only [Memory.setRun]
    split
    · rw [ih (set_wf hm ‹_› b) _ (by omega), get_set m hm.1]
      simp [show c ≠ a by omega]
    · exact ih hm _ (by omega)

/-- What a run of bytes reads as: its own bytes where they exist and fit, the bytes before elsewhere. -/
theorem get_setRun {m : Memory} (hm : Memory.wf P m) (a : Nat) (bs : List Byte) (c : Nat) :
    Memory.get P (Memory.setRun P m a bs) c =
      if h : a ≤ c ∧ c - a < bs.length ∧ c < P.memCapacity then bs[c - a]'h.2.1 else Memory.get P m c := by
  induction bs generalizing m a with
  | nil => simp [Memory.setRun]
  | cons b bs ih =>
    simp only [Memory.setRun]
    have key : ∀ m', Memory.wf P m' → (∀ d, d ≠ a → Memory.get P m' d = Memory.get P m d) →
        (Memory.get P m' a = if a < P.memCapacity then b else Memory.get P m a) →
        Memory.get P (Memory.setRun P m' (a + 1) bs) c =
          if h : a ≤ c ∧ c - a < (b :: bs).length ∧ c < P.memCapacity then (b :: bs)[c - a]'h.2.1 else Memory.get P m c := by
      intro m' hm' hd ha
      rw [ih hm']
      rcases Nat.lt_trichotomy c a with hlt | heq | hgt
      · rw [dif_neg (by omega), dif_neg (by omega), hd c (by omega)]
      · subst heq
        rw [dif_neg (by omega), ha]
        by_cases hcap : c < P.memCapacity <;> simp [hcap]
      · obtain ⟨e, rfl⟩ : ∃ e, c = a + 1 + e := ⟨c - (a + 1), by omega⟩
        by_cases hin : e < bs.length ∧ a + 1 + e < P.memCapacity
        · rw [dif_pos (by omega), dif_pos (by simp; omega)]
          have h1 : a + 1 + e - (a + 1) = e := by omega
          have h2 : a + 1 + e - a = e + 1 := by omega
          simp only [h1, h2, List.getElem_cons_succ]
        · rw [dif_neg (by omega), dif_neg (by simp; omega), hd _ (by omega)]
    split
    · rename_i hcap
      exact key _ (set_wf hm hcap b) (fun d hd => by rw [get_set m hm.1, if_neg hd])
        (by rw [get_set m hm.1, if_pos rfl, if_pos hcap])
    · rename_i hcap
      exact key m hm (fun _ _ => rfl) (by rw [if_neg hcap])

/-- Cells that do not name an address leave it alone. -/
theorem get_ofCells_of_ne {m : Memory} (hm : Memory.wf P m) (cs : List Host.Cell) {a : Nat} (h : ∀ c ∈ cs, c.1 ≠ a) :
    Memory.get P (Memory.ofCells P m cs) a = Memory.get P m a := by
  induction cs generalizing m with
  | nil => rfl
  | cons c cs ih =>
    have hc : a ≠ c.1 := (h c (by simp)).symm
    have hcs : ∀ d ∈ cs, d.1 ≠ a := fun d hd => h d (by simp [hd])
    simp only [Memory.ofCells]
    split
    · rw [ih (set_wf hm ‹_› _) hcs, get_set m hm.1, if_neg hc]
    · exact ih hm hcs

/-- The last cell that names an address of the memory gives its byte. -/
theorem get_ofCells_last {m : Memory} (hm : Memory.wf P m) (pre post : List Host.Cell) {a : Nat} {b : Byte}
    (ha : a < P.memCapacity) (h : ∀ c ∈ post, c.1 ≠ a) :
    Memory.get P (Memory.ofCells P m (pre ++ (a, b) :: post)) a = b := by
  induction pre generalizing m with
  | nil =>
    show Memory.get P (Memory.ofCells P (if a < P.memCapacity then Memory.set P m a b else m) post) a = b
    rw [if_pos ha, get_ofCells_of_ne (set_wf hm ha b) post h, get_set m hm.1, if_pos rfl]
  | cons c pre ih =>
    simp only [List.cons_append, Memory.ofCells]
    split
    · exact ih (set_wf hm ‹_› _)
    · exact ih hm

theorem nil_wf : Memory.wf P [] := ⟨List.Pairwise.nil, fun _ h => by simp at h⟩

end Sys2Proof.Machine
end

