-- ==== Sys2Proof/Laws/Ops.lean ====
section
/-! SUPPORT. The shared operations: what each answers, stated once. -/

namespace Sys2Proof.Machine

/-! ### Memory -/

/-- The bounds check decides the range of R51. -/
theorem inBounds_iff (p : Params) (a : Int) : inBounds p a = true ↔ validAddr p a := by
  unfold validAddr
  cases a with
  | ofNat n => simp [inBounds]
  | negSucc n => simp [inBounds]

theorem memRead_valid {s : State} {a : Int} (h : validAddr s.params a) : s.memRead a = some (Memory.get s.params s.mem a.toNat) :=
  if_pos ((inBounds_iff _ a).2 h)

theorem memRead_invalid {s : State} {a : Int} (h : ¬ validAddr s.params a) : s.memRead a = none :=
  if_neg fun hb => h ((inBounds_iff _ a).1 hb)

theorem memWrite_valid {s : State} {a : Int} (h : validAddr s.params a) (b : Byte) :
    s.memWrite a b = some (s.setMem (Memory.set s.params s.mem a.toNat b)) := if_pos ((inBounds_iff _ a).2 h)

theorem memWrite_invalid {s : State} {a : Int} (h : ¬ validAddr s.params a) (b : Byte) : s.memWrite a b = none :=
  if_neg fun hb => h ((inBounds_iff _ a).1 hb)

/-- Reading depends on the memory and the instance alone. -/
theorem memRead_congr {s t : State} (hp : t.params = s.params) (h : t.mem = s.mem) (a : Int) : t.memRead a = s.memRead a := by
  simp only [State.memRead, hp, h]

/-- States of one instance with one memory have the same bytes. -/
theorem sameMemory_of_mem {s t : State} (hp : t.params = s.params) (h : t.mem = s.mem) : SameMemory s t := memRead_congr hp h

theorem indexed_valid_iff (s : State) (k : Nat) : validAddr s.params (s.indexed k) ↔ s.i.toNat + k < s.params.memCapacity := by
  unfold State.indexed validAddr; omega

theorem indexed_toNat (s : State) (k : Nat) : (s.indexed k).toNat = s.i.toNat + k := by
  unfold State.indexed; omega

theorem indexed_inj (s : State) {j k : Nat} : s.indexed j = s.indexed k ↔ j = k := by
  unfold State.indexed; omega

/-! ### A sequence of accesses -/

/-- Every access of a sequence in which each one succeeds is made. -/
theorem accessUp_succ_ok {α : Type} {body : Nat → α → Access α} {k : Nat} {a a' : α} (h : body k a = .ok a') (n : Nat) :
    accessUp body k (n + 1) a = accessUp body (k + 1) n a' := by
  simp only [accessUp, h]

/-- An access out of bounds ends the sequence. -/
theorem accessUp_succ_outOfBounds {α : Type} {body : Nat → α → Access α} {k : Nat} {a a' : α} {addr : Int}
    (h : body k a = .outOfBounds a' addr) (n : Nat) : accessUp body k (n + 1) a = .outOfBounds a' addr := by
  simp only [accessUp, h]

/-- What every access of a sequence keeps, the sequence keeps, however it ends. -/
theorem accessUp_keeps {α : Type} (P : α → Prop) {body : Nat → α → Access α}
    (hok : ∀ j a a', P a → body j a = .ok a' → P a')
    (hout : ∀ j a a' addr, P a → body j a = .outOfBounds a' addr → P a') (n k : Nat) {a : α} (ha : P a) :
    (∀ t, accessUp body k n a = .ok t → P t) ∧ (∀ t addr, accessUp body k n a = .outOfBounds t addr → P t) := by
  induction n generalizing k a with
  | zero => simp only [accessUp]; exact ⟨fun t h => by cases h; exact ha, fun t addr h => by cases h⟩
  | succ n ih =>
    cases hb : body k a with
    | ok a' => rw [accessUp_succ_ok hb]; exact ih (k + 1) (hok k a a' ha hb)
    | outOfBounds a' addr =>
      rw [accessUp_succ_outOfBounds hb]
      exact ⟨fun t h => (by cases h), fun t ad h => by cases h; exact hout k a _ _ ha hb⟩

/-! ### Storing a run of bytes at I + k -/

theorem storeAt_valid {s : State} {k : Nat} (h : validAddr s.params (s.indexed k)) (b : Byte) :
    s.storeAt k b = .ok (s.setMem (Memory.set s.params s.mem (s.i.toNat + k) b)) := by
  simp only [State.storeAt, memWrite_valid h, indexed_toNat]

theorem storeAt_invalid {s : State} {k : Nat} (h : ¬ validAddr s.params (s.indexed k)) (b : Byte) :
    s.storeAt k b = .outOfBounds s (s.indexed k) := by
  simp only [State.storeAt, memWrite_invalid h]

/-- Storing bytes that do not depend on memory at I + k, …, I + k + n - 1, all in bounds. -/
theorem accessUp_storeAt (g : State → Nat → Byte) (hg : ∀ t m j, g (t.setMem m) j = g t j) (n k : Nat) (s : State)
    (hm : Memory.wf s.params s.mem) (hv : ∀ j, k ≤ j → j < k + n → validAddr s.params (s.indexed j)) :
    ∃ m, accessUp (fun j t => t.storeAt j (g t j)) k n s = .ok (s.setMem m) ∧ Memory.wf s.params m ∧
      ∀ a, Memory.get s.params m a =
        if s.i.toNat + k ≤ a ∧ a < s.i.toNat + (k + n) then g s (a - s.i.toNat) else Memory.get s.params s.mem a := by
  induction n generalizing k s with
  | zero => exact ⟨s.mem, rfl, hm, fun a => by rw [if_neg (by omega)]⟩
  | succ n ih =>
    have hk := hv k (by omega) (by omega)
    have hlt := (indexed_valid_iff s k).1 hk
    rw [accessUp_succ_ok (body := fun j t => State.storeAt t j (g t j)) (storeAt_valid hk _)]
    obtain ⟨m, h1, h2, h3⟩ := ih (k + 1) (s.setMem (Memory.set s.params s.mem (s.i.toNat + k) (g s k))) (set_wf hm hlt _)
      (fun j h1 h2 => hv j (by omega) (by omega))
    refine ⟨m, h1, h2, fun a => ?_⟩
    simp only [setMem_params, setMem_i, setMem_mem, hg, get_set s.mem hm.1] at h3
    rw [h3]
    by_cases ha : a = s.i.toNat + k
    · subst ha
      rw [if_neg (by omega), if_pos rfl, if_pos (by omega), show s.i.toNat + k - s.i.toNat = k by omega]
    · by_cases hr : s.i.toNat + (k + 1) ≤ a ∧ a < s.i.toNat + (k + 1 + n)
      · rw [if_pos hr, if_pos (by omega)]
      · rw [if_neg hr, if_neg ha, if_neg (by omega)]

/-- The same with the access at `I + e` the first one out of bounds: the bytes before it are written. -/
theorem accessUp_storeAt_outOfBounds (g : State → Nat → Byte) (hg : ∀ t m j, g (t.setMem m) j = g t j) (n k e : Nat)
    (s : State) (hm : Memory.wf s.params s.mem) (hke : k ≤ e) (hen : e < k + n) (hv : ∀ j, k ≤ j → j < e → validAddr s.params (s.indexed j))
    (he : ¬ validAddr s.params (s.indexed e)) :
    ∃ m, accessUp (fun j t => t.storeAt j (g t j)) k n s = .outOfBounds (s.setMem m) (s.indexed e) ∧ Memory.wf s.params m ∧
      ∀ a, Memory.get s.params m a =
        if s.i.toNat + k ≤ a ∧ a < s.i.toNat + e then g s (a - s.i.toNat) else Memory.get s.params s.mem a := by
  induction n generalizing k s with
  | zero => omega
  | succ n ih =>
    by_cases hk : k = e
    · subst hk
      rw [accessUp_succ_outOfBounds (body := fun j t => State.storeAt t j (g t j)) (storeAt_invalid he _)]
      exact ⟨s.mem, rfl, hm, fun a => by rw [if_neg (by omega)]⟩
    · have hk' := hv k (Nat.le_refl k) (by omega)
      have hlt := (indexed_valid_iff s k).1 hk'
      rw [accessUp_succ_ok (body := fun j t => State.storeAt t j (g t j)) (storeAt_valid hk' _)]
      obtain ⟨m, h1, h2, h3⟩ := ih (k + 1) (s.setMem (Memory.set s.params s.mem (s.i.toNat + k) (g s k))) (set_wf hm hlt _)
        (by omega) (by omega) (fun j h1 h2 => hv j (by omega) h2) he
      refine ⟨m, h1, h2, fun a => ?_⟩
      simp only [setMem_params, setMem_i, setMem_mem, hg, get_set s.mem hm.1] at h3
      rw [h3]
      by_cases ha : a = s.i.toNat + k
      · subst ha
        rw [if_neg (by omega), if_pos rfl, if_pos (by omega), show s.i.toNat + k - s.i.toNat = k by omega]
      · by_cases hr : s.i.toNat + (k + 1) ≤ a ∧ a < s.i.toNat + e
        · rw [if_pos hr, if_pos (by omega)]
        · rw [if_neg hr, if_neg ha, if_neg (by omega)]

/-- A memory in which the e bytes from I on were replaced by g's: the byte at I + k. -/
theorem memRead_run {s : State} {m : Memory} (g : Nat → Byte) {e : Nat}
    (h : ∀ a, Memory.get s.params m a =
      if s.i.toNat + 0 ≤ a ∧ a < s.i.toNat + e then g (a - s.i.toNat) else Memory.get s.params s.mem a)
    {k : Nat} (hk : k < e) (hv : validAddr s.params (s.indexed k)) : (s.setMem m).memRead (s.indexed k) = some (g k) := by
  rw [memRead_valid (s := s.setMem m) hv]
  show some (Memory.get s.params m (s.indexed k).toNat) = _
  rw [h, indexed_toNat, if_pos (by omega), Nat.add_sub_cancel_left]

/-- Such a memory reads as before at every address but those e. -/
theorem memRead_run_frame {s : State} {m : Memory} (g : Nat → Byte) {e : Nat}
    (h : ∀ a, Memory.get s.params m a =
      if s.i.toNat + 0 ≤ a ∧ a < s.i.toNat + e then g (a - s.i.toNat) else Memory.get s.params s.mem a)
    (a : Int) (ha : ∀ j < e, a ≠ s.indexed j) : (s.setMem m).memRead a = s.memRead a := by
  by_cases hv : validAddr s.params a
  · rw [memRead_valid (s := s.setMem m) hv, memRead_valid hv]
    show some (Memory.get s.params m a.toNat) = _
    rw [h, if_neg]
    rintro ⟨h1, h2⟩
    have := hv.1
    exact ha (a.toNat - s.i.toNat) (by omega) (by unfold State.indexed; omega)
  · rw [memRead_invalid (s := s.setMem m) hv, memRead_invalid hv]

/-! ### Loading a run of bytes from I + k -/

theorem loadAt_valid {s : State} {k : Nat} (h : validAddr s.params (s.indexed k)) :
    s.loadAt k = .ok (s.setV (BitVec.ofNat 4 k) (Memory.get s.params s.mem (s.i.toNat + k))) := by
  simp only [State.loadAt, memRead_valid h, indexed_toNat]

theorem loadAt_invalid {s : State} {k : Nat} (h : ¬ validAddr s.params (s.indexed k)) :
    s.loadAt k = .outOfBounds s (s.indexed k) := by
  simp only [State.loadAt, memRead_invalid h]

/-- Loading registers k to k + n - 1 from I + k, …, all in bounds. -/
theorem accessUp_loadAt (n k : Nat) (s : State) (hn : k + n ≤ 16)
    (hv : ∀ j, k ≤ j → j < k + n → validAddr s.params (s.indexed j)) :
    ∃ t, accessUp (fun j t => t.loadAt j) k n s = .ok t ∧ t = { s with v := t.v } ∧
      ∀ r : Nibble, t.getV r =
        if k ≤ r.toNat ∧ r.toNat < k + n then Memory.get s.params s.mem (s.i.toNat + r.toNat) else s.getV r := by
  induction n generalizing k s with
  | zero => exact ⟨s, rfl, rfl, fun r => by rw [if_neg (by omega)]⟩
  | succ n ih =>
    rw [accessUp_succ_ok (body := fun j t => State.loadAt t j) (loadAt_valid (hv k (by omega) (by omega)))]
    obtain ⟨t, h1, h2, h3⟩ := ih (k + 1) (s.setV (BitVec.ofNat 4 k) (Memory.get s.params s.mem (s.i.toNat + k))) (by omega)
      (fun j h1 h2 => hv j (by omega) (by omega))
    refine ⟨t, h1, h2.trans rfl, fun r => ?_⟩
    have hk : (BitVec.ofNat 4 k).toNat = k := by simp; omega
    rw [h3, getV_setV]
    by_cases hr : BitVec.ofNat 4 k = r
    · have hr' : r.toNat = k := by rw [← hr, hk]
      rw [if_neg (by omega), if_pos hr, if_pos (by omega), hr']
    · have hr' : r.toNat ≠ k := fun h => hr (BitVec.eq_of_toNat_eq (by rw [hk, h]))
      by_cases hin : k + 1 ≤ r.toNat ∧ r.toNat < k + 1 + n
      · rw [if_pos hin, if_pos (by omega)]; rfl
      · rw [if_neg hin, if_neg hr, if_neg (by omega)]

/-- The same with the access at `I + e` the first one out of bounds: the registers before it are loaded. -/
theorem accessUp_loadAt_outOfBounds (n k e : Nat) (s : State) (hn : k + n ≤ 16) (hke : k ≤ e) (hen : e < k + n)
    (hv : ∀ j, k ≤ j → j < e → validAddr s.params (s.indexed j)) (he : ¬ validAddr s.params (s.indexed e)) :
    ∃ t, accessUp (fun j t => t.loadAt j) k n s = .outOfBounds t (s.indexed e) ∧ t = { s with v := t.v } ∧
      ∀ r : Nibble, t.getV r =
        if k ≤ r.toNat ∧ r.toNat < e then Memory.get s.params s.mem (s.i.toNat + r.toNat) else s.getV r := by
  induction n generalizing k s with
  | zero => omega
  | succ n ih =>
    by_cases hk : k = e
    · subst hk
      rw [accessUp_succ_outOfBounds (body := fun j t => State.loadAt t j) (loadAt_invalid he)]
      exact ⟨s, rfl, rfl, fun r => by rw [if_neg (by omega)]⟩
    · rw [accessUp_succ_ok (body := fun j t => State.loadAt t j) (loadAt_valid (hv k (Nat.le_refl k) (by omega)))]
      obtain ⟨t, h1, h2, h3⟩ := ih (k + 1) (s.setV (BitVec.ofNat 4 k) (Memory.get s.params s.mem (s.i.toNat + k))) (by omega)
        (by omega) (by omega) (fun j h1 h2 => hv j (by omega) h2) he
      refine ⟨t, h1, h2.trans rfl, fun r => ?_⟩
      have hk2 : (BitVec.ofNat 4 k).toNat = k := by simp; omega
      rw [h3, getV_setV]
      by_cases hr : BitVec.ofNat 4 k = r
      · have hr' : r.toNat = k := by rw [← hr, hk2]
        rw [if_neg (by omega), if_pos hr, if_pos (by omega), hr']
      · have hr' : r.toNat ≠ k := fun h => hr (BitVec.eq_of_toNat_eq (by rw [hk2, h]))
        by_cases hin : k + 1 ≤ r.toNat ∧ r.toNat < e
        · rw [if_pos hin, if_pos (by omega)]; rfl
        · rw [if_neg hin, if_neg hr, if_neg (by omega)]

/-! ### Drawing a run of rows -/

theorem drawRow_valid (x0 y0 : Nat) {j : Nat} {sa : State × Bool} (h : validAddr sa.1.params (sa.1.indexed j)) :
    drawRow x0 y0 j sa =
      .ok (sa.1.setFb (drawByte sa.1.params sa.1.fb x0 (y0 + j) (Memory.get sa.1.params sa.1.mem (sa.1.i.toNat + j))).1,
        (drawByte sa.1.params sa.1.fb x0 (y0 + j) (Memory.get sa.1.params sa.1.mem (sa.1.i.toNat + j))).2 || sa.2) := by
  simp only [drawRow, memRead_valid h, indexed_toNat]

theorem drawRow_invalid (x0 y0 : Nat) {j : Nat} {sa : State × Bool} (h : ¬ validAddr sa.1.params (sa.1.indexed j)) :
    drawRow x0 y0 j sa = .outOfBounds sa (sa.1.indexed j) := by
  simp only [drawRow, memRead_invalid h]

/-- Drawing changes the framebuffer and the collision flag, whether it ends or not. -/
theorem accessUp_drawRow_frame (x0 y0 n k : Nat) (sa : State × Bool) :
    (∀ t, accessUp (drawRow x0 y0) k n sa = .ok t → t.1 = sa.1.setFb t.1.fb) ∧
      (∀ t addr, accessUp (drawRow x0 y0) k n sa = .outOfBounds t addr → t.1 = sa.1.setFb t.1.fb) := by
  refine accessUp_keeps (fun t : State × Bool => t.1 = sa.1.setFb t.1.fb) ?_ ?_ n k rfl
  · intro j a a' ha h
    by_cases hv : validAddr a.1.params (a.1.indexed j)
    · rw [drawRow_valid x0 y0 hv] at h
      cases h
      exact (congrArg (fun u => State.setFb u _) ha).trans rfl
    · rw [drawRow_invalid x0 y0 hv] at h; cases h
  · intro j a a' addr ha h
    by_cases hv : validAddr a.1.params (a.1.indexed j)
    · rw [drawRow_valid x0 y0 hv] at h; cases h
    · rw [drawRow_invalid x0 y0 hv] at h; cases h; exact ha

/-- Drawing stops at the first byte out of bounds. -/
theorem accessUp_drawRow_outOfBounds (x0 y0 n k e : Nat) (sa : State × Bool) (hke : k ≤ e) (hen : e < k + n)
    (hv : ∀ j, k ≤ j → j < e → validAddr sa.1.params (sa.1.indexed j)) (he : ¬ validAddr sa.1.params (sa.1.indexed e)) :
    ∃ t, accessUp (drawRow x0 y0) k n sa = .outOfBounds t (sa.1.indexed e) := by
  induction n generalizing k sa with
  | zero => omega
  | succ n ih =>
    by_cases hk : k = e
    · subst hk; exact ⟨sa, accessUp_succ_outOfBounds (drawRow_invalid x0 y0 he) n⟩
    · rw [accessUp_succ_ok (drawRow_valid x0 y0 (hv k (Nat.le_refl k) (by omega)))]
      exact ih (k + 1) _ (by omega) (by omega) (fun j h1 h2 => hv j (by omega) h2) he

/-! ### The call stack -/

theorem push_of_not_full {s : State} (h : s.stackFull = false) (a : Word) :
    s.push a = some { s with stack := s.stack ++ [a] } := by
  unfold State.push; rw [h]; rfl

theorem push_of_full {s : State} (h : s.stackFull = true) (a : Word) : s.push a = none := by
  unfold State.push; rw [h]; rfl

theorem pop_nil {s : State} (h : s.stack = []) : s.pop = none := by
  unfold State.pop; rw [h]; rfl

theorem pop_append {s : State} {st : List Word} {a : Word} (h : s.stack = st ++ [a]) :
    s.pop = some (a, { s with stack := st }) := by
  unfold State.pop; simp [h]

theorem stackFull_iff (s : State) : s.stackFull = true ↔ s.params.stackDepth = some s.stack.length := by
  unfold State.stackFull
  cases h : s.params.stackDepth with
  | none => simp
  | some d =>
    show (s.stack.length == d) = true ↔ _
    rw [beq_iff_eq, Option.some.injEq]
    exact eq_comm

/-! ### Ports -/

theorem mem_allKeys (k : Nibble) : k ∈ allKeys := by
  refine List.mem_map.2 ⟨k.toNat, List.mem_range.2 k.isLt, by simp⟩

theorem mem_pressedKeys (s : State) (k : Nibble) : k ∈ s.pressedKeys ↔ s.keyPressed k = true := by
  unfold State.pressedKeys
  rw [List.mem_filter, and_iff_right (mem_allKeys k)]

/-- `Key.any()` (R37): no key where none is pressed, else one of the pressed keys; the state keeps everything but the
draw counter. -/
theorem keyAny_cases (s : State) :
    ((∀ k, s.keyPressed k = false) ∧ s.keyAny = (none, s)) ∨
      ∃ k, s.keyPressed k = true ∧ s.keyAny.1 = some k ∧ s.keyAny.2 = { s with draws := s.keyAny.2.draws } := by
  cases h : s.pressedKeys with
  | nil =>
    refine .inl ⟨fun k => ?_, by unfold State.keyAny; rw [h]⟩
    have : k ∉ s.pressedKeys := by rw [h]; simp
    rw [mem_pressedKeys] at this
    simpa using this
  | cons k ks =>
    refine .inr ?_
    cases ks with
    | nil =>
      exact ⟨k, (mem_pressedKeys s k).1 (by rw [h]; simp), by unfold State.keyAny; rw [h], by unfold State.keyAny; rw [h]⟩
    | cons k' ks =>
      refine ⟨(k :: k' :: ks).getD (Config.keyChoice s.draws % (k :: k' :: ks).length) k, (mem_pressedKeys s _).1 ?_,
        by unfold State.keyAny; rw [h], by unfold State.keyAny; rw [h]⟩
      have hlt : Config.keyChoice s.draws % (k :: k' :: ks).length < (k :: k' :: ks).length :=
        Nat.mod_lt _ (by simp)
      rw [List.getD_eq_getElem _ _ hlt, h]
      exact List.getElem_mem hlt

/-- `Rnd()` (R38) with a byte supplied: that byte, taken off the port. -/
theorem rndNext_supplied {s : State} {b : Byte} {bs : List Byte} (h : s.rnd = b :: bs) :
    s.rndNext = (b, { s with rnd := bs }) := by
  unfold State.rndNext; rw [h]

/-- `Rnd()` (R38) with none supplied: a fresh free value. -/
theorem rndNext_free {s : State} (h : s.rnd = []) :
    s.rndNext = (Config.rndByte s.draws, { s with draws := s.draws + 1 }) := by
  unfold State.rndNext; rw [h]

/-! ### The host's order -/

/-- The host's next operation is the first of the schedule; -/
theorem nextOp_scheduled {s : State} {op : HostOp} {ops : List HostOp} (h : s.schedule = op :: ops) :
    s.nextOp = (op, { s with schedule := ops }) := by
  unfold State.nextOp; rw [h]

/-- with the schedule at its end, the first of the operations that repeat, the others scheduled after it; -/
theorem nextOp_repeats {s : State} {op : HostOp} {ops : List HostOp} (h : s.schedule = []) (hl : s.later = .repeats op ops) :
    s.nextOp = (op, { s with schedule := ops }) := by
  unfold State.nextOp; rw [h, hl]

/-- or a fresh free value. -/
theorem nextOp_free {s : State} {n : Nat} (h : s.schedule = []) (hl : s.later = .free n) :
    s.nextOp = (.ofRun (Config.hostOp n), { s with later := .free (n + 1) }) := by
  unfold State.nextOp; rw [h, hl]

/-- Issuing an operation changes the host's order alone. -/
theorem nextOp_frame (s : State) :
    s.nextOp.2 = { s with schedule := s.nextOp.2.schedule, later := s.nextOp.2.later } := by
  unfold State.nextOp
  split
  · rfl
  · split <;> rfl

/-! ### Fetching -/

theorem highByte_wordOfBytes (b0 b1 : Byte) : highByte (wordOfBytes b0 b1) = b0 := by
  simp only [highByte, wordOfBytes, BitVec.extractLsb'_append_eq_left]

theorem lowByte_wordOfBytes (b0 b1 : Byte) : lowByte (wordOfBytes b0 b1) = b1 := by
  simp only [lowByte, wordOfBytes, BitVec.extractLsb'_append_eq_right]

theorem fetch_word {s : State} {b0 b1 : Byte} (h0 : s.memRead s.pc.toInt = some b0)
    (h1 : s.memRead (s.pc.toInt + 1) = some b1) : s.fetch = .word (wordOfBytes b0 b1) := by
  unfold State.fetch; rw [h0, h1]

/-- The bytes of a fetched word are what the two addresses hold. -/
theorem memRead_of_fetch {s : State} {op : Word} (h : s.fetch = .word op) :
    s.memRead s.pc.toInt = some (highByte op) ∧ s.memRead (s.pc.toInt + 1) = some (lowByte op) := by
  unfold State.fetch at h
  split at h
  · cases h
  · rename_i b0 h0
    split at h
    · cases h
    · rename_i b1 h1
      cases h
      exact ⟨h0.trans (congrArg some (highByte_wordOfBytes b0 b1).symm), h1.trans (congrArg some (lowByte_wordOfBytes b0 b1).symm)⟩

/-- A fetch that gives a word read both bytes; one that does not stopped at the first address out of bounds. -/
theorem fetch_cases (s : State) :
    (validAddr s.params s.pc.toInt ∧ validAddr s.params (s.pc.toInt + 1) ∧
      s.fetch = .word (wordOfBytes (Memory.get s.params s.mem s.pc.toInt.toNat) (Memory.get s.params s.mem (s.pc.toInt + 1).toNat))) ∨
    (¬ validAddr s.params s.pc.toInt ∧ s.fetch = .outOfBounds s.pc.toInt) ∨
    (validAddr s.params s.pc.toInt ∧ ¬ validAddr s.params (s.pc.toInt + 1) ∧ s.fetch = .outOfBounds (s.pc.toInt + 1)) := by
  by_cases h0 : validAddr s.params s.pc.toInt
  · by_cases h1 : validAddr s.params (s.pc.toInt + 1)
    · exact .inl ⟨h0, h1, fetch_word (memRead_valid h0) (memRead_valid h1)⟩
    · exact .inr (.inr ⟨h0, h1, by unfold State.fetch; rw [memRead_valid h0, memRead_invalid h1]⟩)
  · exact .inr (.inl ⟨h0, by unfold State.fetch; rw [memRead_invalid h0]⟩)

end Sys2Proof.Machine
end

