-- ==== Sys2Proof/Laws/Drawing.lean ====
section
/-! SUPPORT. A run of sprite rows as the picture it draws (44_display.md R162, R163). -/

namespace Sys2Proof.Machine

/-- Drawing rows k to k + n - 1 with their bytes in bounds (R162, R163): the framebuffer alone changes, every pixel of the
grid is toggled where a row's byte has a 1 bit, and the flag is set when one of those pixels was. -/
theorem accessUp_drawRow (x0 y0 n k : Nat) (s : State) (c : Bool) (hf : Framebuffer.wf s.params s.fb)
    (hv : ∀ j, k ≤ j → j < k + n → validAddr s.params (s.indexed j)) :
    ∃ fb c', accessUp (drawRow x0 y0) k n (s, c) = .ok (s.setFb fb, c') ∧
      (∀ px py, px < s.params.fbWidth → py < s.params.fbHeight → Framebuffer.pixel fb px py = (Framebuffer.pixel s.fb px py ^^
        (decide (x0 ≤ px ∧ px < x0 + 8 ∧ y0 + k ≤ py ∧ py < y0 + (k + n)) &&
          (Memory.get s.params s.mem (s.i.toNat + (py - y0))).getLsbD (7 - (px - x0))))) ∧
      (c' = true ↔ c = true ∨ ∃ px py, px < s.params.fbWidth ∧ py < s.params.fbHeight ∧ Framebuffer.pixel s.fb px py = true ∧
        (x0 ≤ px ∧ px < x0 + 8 ∧ y0 + k ≤ py ∧ py < y0 + (k + n)) ∧
          (Memory.get s.params s.mem (s.i.toNat + (py - y0))).getLsbD (7 - (px - x0)) = true) := by
  induction n generalizing k s c with
  | zero =>
    refine ⟨s.fb, c, rfl, fun px py _ _ => ?_, .inl, ?_⟩
    · rw [decide_eq_false (by omega)]; simp
    · rintro (h | ⟨px, py, _, _, _, h, _⟩)
      · exact h
      · omega
  | succ n ih =>
    have hk := hv k (Nat.le_refl k) (by omega)
    rw [accessUp_succ_ok (drawRow_valid x0 y0 (sa := (s, c)) hk)]
    obtain ⟨d1, d2⟩ := drawByte_spec hf x0 (y0 + k) (Memory.get s.params s.mem (s.i.toNat + k))
    have hw := drawByte_wf hf x0 (y0 + k) (Memory.get s.params s.mem (s.i.toNat + k))
    generalize drawByte s.params s.fb x0 (y0 + k) (Memory.get s.params s.mem (s.i.toNat + k)) = d at d1 d2 hw
    obtain ⟨fb, c', e1, e2, e3⟩ := ih (k + 1) (s.setFb d.1) (d.2 || c) hw (fun j h1 h2 => hv j (by omega) (by omega))
    have hj : y0 + k - y0 = k := by omega
    refine ⟨fb, c', e1, fun px py hx hy => ?_, e3.trans ?_⟩
    · rw [e2 px py hx hy]
      show (Framebuffer.pixel d.1 px py ^^
        (_ && BitVec.getLsbD (Memory.get s.params s.mem (s.i.toNat + (py - y0))) _)) = _
      rw [d1 px py hx hy]
      by_cases hp : py = y0 + k
      · subst hp
        rw [hj]
        have a1 : ¬ (y0 + (k + 1) ≤ y0 + k) := by omega
        have a2 : y0 + k < y0 + (k + (n + 1)) := by omega
        by_cases hq : x0 ≤ px ∧ px < x0 + 8
        · simp [hq, a1, a2]
        · rw [decide_eq_false (fun h => hq h.2), decide_eq_false (fun h => a1 h.2.2.1),
            decide_eq_false (fun h => hq ⟨h.1, h.2.1⟩)]
          simp
      · have : (x0 ≤ px ∧ px < x0 + 8 ∧ y0 + (k + 1) ≤ py ∧ py < y0 + (k + 1 + n)) ↔
            (x0 ≤ px ∧ px < x0 + 8 ∧ y0 + k ≤ py ∧ py < y0 + (k + (n + 1))) := by omega
        simp [hp, this]
    · rw [Bool.or_eq_true, d2]
      have later : ∀ px py, px < s.params.fbWidth → py < s.params.fbHeight → y0 + (k + 1) ≤ py →
          Framebuffer.pixel d.1 px py = Framebuffer.pixel s.fb px py := by
        intro px py hx hy h; rw [d1 px py hx hy]; simp [show py ≠ y0 + k by omega]
      constructor
      · rintro ((⟨px, h1, h2, h3, h4, h5, h6⟩ | h) | ⟨px, py, h1, h2, h3, h4, h5⟩)
        · exact .inr ⟨px, y0 + k, h1, h2, h6, by omega, by rw [hj]; exact h5⟩
        · exact .inl h
        · exact .inr ⟨px, py, h1, h2, (later px py h1 h2 (by omega)).symm.trans h3, by omega, h5⟩
      · rintro (h | ⟨px, py, h1, h2, h3, h4, h5⟩)
        · exact .inl (.inr h)
        · by_cases hp : py = y0 + k
          · subst hp
            rw [hj] at h5
            exact .inl (.inl ⟨px, h1, h2, h4.1, h4.2.1, h5, h3⟩)
          · exact .inr ⟨px, py, h1, h2, (later px py h1 h2 (by omega)).trans h3, by omega, h5⟩

end Sys2Proof.Machine
end

