-- ==== Sys2Proof/Laws/Step.lean ====
section
/-! SUPPORT. What a step can do, said once. -/

namespace Sys2Proof.Machine

/-- Every meaning answers a next state: an error an instruction raises is a latched record, not a stop (log 1). -/
theorem exec_next (i : Instr) (s : State) : ∃ t, exec i s = .next t := by
  cases i <;> exact ⟨_, rfl⟩

/-- When the host's next operation is a STEP, the step is that STEP. -/
theorem step_of_stepNext {s : State} (h : s.stepNext) : step s = stepOp s.issued := by
  unfold step; rw [h]; rfl

/-! ### Issuing an operation leaves the state as it is, but for the host's order -/

@[simp] theorem issued_v (s : State) : s.issued.v = s.v := by unfold State.issued; rw [nextOp_frame]
@[simp] theorem issued_i (s : State) : s.issued.i = s.i := by unfold State.issued; rw [nextOp_frame]
@[simp] theorem issued_pc (s : State) : s.issued.pc = s.pc := by unfold State.issued; rw [nextOp_frame]
@[simp] theorem issued_stack (s : State) : s.issued.stack = s.stack := by unfold State.issued; rw [nextOp_frame]
@[simp] theorem issued_dt (s : State) : s.issued.dt = s.dt := by unfold State.issued; rw [nextOp_frame]
@[simp] theorem issued_st (s : State) : s.issued.st = s.st := by unfold State.issued; rw [nextOp_frame]
@[simp] theorem issued_fb (s : State) : s.issued.fb = s.fb := by unfold State.issued; rw [nextOp_frame]
@[simp] theorem issued_mem (s : State) : s.issued.mem = s.mem := by unfold State.issued; rw [nextOp_frame]
@[simp] theorem issued_fault (s : State) : s.issued.fault = s.fault := by unfold State.issued; rw [nextOp_frame]
@[simp] theorem issued_soundEdge (s : State) : s.issued.soundEdge = s.soundEdge := by unfold State.issued; rw [nextOp_frame]
@[simp] theorem issued_romWarn (s : State) : s.issued.romWarn = s.romWarn := by unfold State.issued; rw [nextOp_frame]
@[simp] theorem issued_keys (s : State) : s.issued.keys = s.keys := by unfold State.issued; rw [nextOp_frame]
@[simp] theorem issued_rnd (s : State) : s.issued.rnd = s.rnd := by unfold State.issued; rw [nextOp_frame]
@[simp] theorem issued_params (s : State) : s.issued.params = s.params := by unfold State.issued; rw [nextOp_frame]
@[simp] theorem issued_romOpen (s : State) : s.issued.romOpen = s.romOpen := by unfold State.issued; rw [nextOp_frame]
@[simp] theorem issued_draws (s : State) : s.issued.draws = s.draws := by unfold State.issued; rw [nextOp_frame]
@[simp] theorem issued_fetch (s : State) : s.issued.fetch = s.fetch := by unfold State.issued; rw [nextOp_frame]; rfl

/-- A step performs the host's next operation on the state with it issued. -/
theorem step_eq_perform (s : State) : step s = perform s.nextOp.1 s.issued := rfl

/-! ### STEP -/

theorem stepOp_latched {s : State} {r : FaultRecord} (h : s.fault = some r) : stepOp s = .next s := by
  unfold stepOp; rw [h]

/-- Fetching does not depend on whether LOAD is over. -/
@[simp] theorem closeRom_fetch (s : State) : s.closeRom.fetch = s.fetch := rfl

theorem stepOp_outOfBounds {s : State} (h : s.fault = none) {addr : Int} (hf : s.fetch = .outOfBounds addr) :
    stepOp s = .next (s.closeRom.raiseInFetch addr) := by
  simp only [stepOp, h, closeRom_fetch, hf]

theorem stepOp_word {s : State} (h : s.fault = none) {op : Word} (hf : s.fetch = .word op) :
    stepOp s = decodeAndExec op s.closeRom.advance := by
  simp only [stepOp, h, closeRom_fetch, hf]

theorem decodeAndExec_instr {s : State} {op : Word} {i : Instr} (h : decode s.params.strict59 op = .instr i) :
    decodeAndExec op s = exec i s := by
  simp only [decodeAndExec, h]

theorem decodeAndExec_invalid {s : State} {op : Word} (h : decode s.params.strict59 op = .invalidOpcode op) :
    decodeAndExec op s = .next (s.raiseIn op .invalidOpcode none none) := by
  simp only [decodeAndExec, h]

/-- The four things a STEP can do (R95): repeat a latched error, fail in its fetch, reject the word, or execute the
instruction the word decodes to. -/
theorem stepOp_cases (s : State) :
    (∃ r, s.fault = some r ∧ stepOp s = .next s) ∨
    (∃ addr, s.fault = none ∧ s.fetch = .outOfBounds addr ∧ stepOp s = .next (s.closeRom.raiseInFetch addr)) ∨
    (∃ op, s.fault = none ∧ s.fetch = .word op ∧ decode s.params.strict59 op = .invalidOpcode op ∧
      stepOp s = .next (s.closeRom.advance.raiseIn op .invalidOpcode none none)) ∨
    (∃ op i, s.fault = none ∧ s.fetch = .word op ∧ decode s.params.strict59 op = .instr i ∧
      stepOp s = exec i s.closeRom.advance) := by
  cases hf : s.fault with
  | some r => exact .inl ⟨r, rfl, stepOp_latched hf⟩
  | none =>
    refine .inr ?_
    cases hw : s.fetch with
    | outOfBounds addr => exact .inl ⟨addr, rfl, rfl, stepOp_outOfBounds hf hw⟩
    | word op =>
      refine .inr ?_
      rcases decode_total s.params.strict59 op with ⟨i, hd⟩ | hd
      · exact .inr ⟨op, i, rfl, rfl, hd, (stepOp_word hf hw).trans (decodeAndExec_instr hd)⟩
      · exact .inl ⟨op, rfl, rfl, hd, (stepOp_word hf hw).trans (decodeAndExec_invalid hd)⟩

/-- A STEP always answers a next state. -/
theorem stepOp_next (s : State) : ∃ t, stepOp s = .next t := by
  rcases stepOp_cases s with ⟨r, _, h⟩ | ⟨a, _, _, h⟩ | ⟨op, _, _, _, h⟩ | ⟨op, i, _, _, _, h⟩
  · exact ⟨_, h⟩
  · exact ⟨_, h⟩
  · exact ⟨_, h⟩
  · rw [h]; exact exec_next _ _

/-- A step performs the first operation of the schedule. -/
theorem step_cons {s : State} {op : HostOp} {ops : List HostOp} (h : s.schedule = op :: ops) :
    step s = perform op { s with schedule := ops } := by
  unfold step; rw [nextOp_scheduled h]

end Sys2Proof.Machine
end

