-- ==== Sys2Proof/Laws/Effects.lean ====
section
/-! SUPPORT. What an instruction can do to the state, said once: the shapes of its next state, each naming the
instructions that can end in it. Whole-machine rules are case analyses of `exec_effect`. -/

namespace Sys2Proof.Machine

/-- The instructions that set PC to a value they compute and change nothing else (R102, R104-R108, R181, R182, R186). -/
def setsPc : Instr → Prop
  | .jp _ | .jpV0 _ | .seImm _ _ | .sneImm _ _ | .seReg _ _ _ | .sneReg _ _ _ | .skp _ | .sknp _ | .ldVxK _ => True
  | _ => False

/-- The instructions that write I (R23). -/
def setsIndex : Instr → Prop
  | .ldI _ | .addI _ | .ldF _ => True
  | _ => False

/-- The instructions that write memory (R50). -/
def storesBytes : Instr → Prop
  | .ldB _ | .storeRegs _ => True
  | _ => False

/-- `Effect s i t`: t is one of the next states the instruction i can end in from s. -/
inductive Effect (s : State) : Instr → State → Prop where
  /-- 00E0 clears the screen. -/
  | clear : Effect s .cls (s.setFb (clearFramebuffer s.params))
  /-- 00EE takes the entry pushed last. -/
  | popped (st : List Word) (a : Word) (h : s.stack = st ++ [a]) : Effect s .ret { s with stack := st, pc := a }
  /-- 00EE finds the stack empty. -/
  | underflow (h : s.stack = []) : Effect s .ret (s.raiseIn (encode .ret) .stackUnderflow none none)
  /-- 2NNN finds room. -/
  | pushed (nnn : Addr12) (h : s.params.stackDepth ≠ some s.stack.length) :
      Effect s (.call nnn) { s with stack := s.stack ++ [s.pc], pc := zext16 nnn }
  /-- 2NNN finds the stack full. -/
  | overflow (nnn : Addr12) (h : s.params.stackDepth = some s.stack.length) :
      Effect s (.call nnn) (s.raiseIn (encode (.call nnn)) .stackOverflow none (some s.stack.length))
  /-- A jump, a skip or a key wait. -/
  | jumped (i : Instr) (p : Word) (hi : setsPc i)
      (h : p.toNat ≤ 0x10FE ∨ p = s.pc ∨ p = s.pc + 2#16 ∨ p = s.pc - 2#16) : Effect s i (s.setPc p)
  /-- Registers, and a byte of the random port or a fresh free value. -/
  | registers (i : Instr) (v : Vector Byte 16) (l : List Byte) (d : Nat) (hc : ∀ nnn, i ≠ .call nnn) (hr : i ≠ .ret) :
      Effect s i { s with v := v, rnd := l, draws := d }
  /-- The index register. -/
  | index (i : Instr) (a : Word) (hi : setsIndex i) (h : paramsWf s.params → a.toNat ≤ 0xFFF) : Effect s i (s.setI a)
  /-- FX15. -/
  | delay (x : Nibble) (b : Byte) : Effect s (.ldDTVx x) (s.setDt b)
  /-- FX18. -/
  | sound (x : Nibble) (b : Byte) : Effect s (.ldSTVx x) (s.setSt b)
  /-- DXYN with every byte in bounds. -/
  | drawn (x y n : Nibble) (fb : Framebuffer) (v : Vector Byte 16)
      (hw : Framebuffer.wf s.params s.fb → Framebuffer.wf s.params fb) : Effect s (.drw x y n) { s with fb := fb, v := v }
  /-- DXYN stopped at a byte out of bounds. -/
  | drawnInPart (x y n : Nibble) (fb : Framebuffer) (e : Nat)
      (hw : Framebuffer.wf s.params s.fb → Framebuffer.wf s.params fb) (h : ¬ validAddr s.params (s.indexed e)) :
      Effect s (.drw x y n)
        ((s.setFb fb).raiseIn (encode (.drw x y n)) .outOfBoundsAccess (some (s.indexed e)) none)
  /-- FX33 or FX55 with every byte in bounds. -/
  | stored (i : Instr) (m : Memory) (hi : storesBytes i) (hm : Memory.wf s.params s.mem → Memory.wf s.params m) : Effect s i (s.setMem m)
  /-- FX33 or FX55 stopped at a byte out of bounds. -/
  | storedInPart (i : Instr) (m : Memory) (e : Nat) (hi : storesBytes i) (hm : Memory.wf s.params s.mem → Memory.wf s.params m)
      (h : ¬ validAddr s.params (s.indexed e)) :
      Effect s i ((s.setMem m).raiseIn (encode i) .outOfBoundsAccess (some (s.indexed e)) none)
  /-- FX65 stopped at a byte out of bounds. -/
  | loadedInPart (x : Nibble) (v : Vector Byte 16) (e : Nat) (h : ¬ validAddr s.params (s.indexed e)) :
      Effect s (.loadRegs x)
        (State.raiseIn { s with v := v } (encode (.loadRegs x)) .outOfBoundsAccess (some (s.indexed e)) none)

/-! ### Sequences of accesses, whatever their addresses -/

/-- A run of stores changes memory alone, keeps its canonical form, and ends or stops at an address out of bounds. -/
theorem accessUp_storeAt_cases (g : State → Nat → Byte) (n k : Nat) (s : State) :
    (∃ m, accessUp (fun j t => t.storeAt j (g t j)) k n s = .ok (s.setMem m) ∧ (Memory.wf s.params s.mem → Memory.wf s.params m)) ∨
    (∃ m e, accessUp (fun j t => t.storeAt j (g t j)) k n s = .outOfBounds (s.setMem m) (s.indexed e) ∧
      (Memory.wf s.params s.mem → Memory.wf s.params m) ∧ ¬ validAddr s.params (s.indexed e)) := by
  induction n generalizing k s with
  | zero => exact .inl ⟨s.mem, rfl, id⟩
  | succ n ih =>
    by_cases hv : validAddr s.params (s.indexed k)
    · rw [accessUp_succ_ok (body := fun j (t : State) => t.storeAt j (g t j)) (storeAt_valid hv (g s k))]
      have hb := (indexed_valid_iff s k).1 hv
      rcases ih (k + 1) (s.setMem (Memory.set s.params s.mem (s.i.toNat + k) (g s k))) with ⟨m, h, hw⟩ | ⟨m, e, h, hw, he⟩
      · exact .inl ⟨m, h, fun hm => hw (set_wf hm hb _)⟩
      · exact .inr ⟨m, e, h, fun hm => hw (set_wf hm hb _), he⟩
    · rw [accessUp_succ_outOfBounds (body := fun j (t : State) => t.storeAt j (g t j)) (storeAt_invalid hv (g s k))]
      exact .inr ⟨s.mem, k, rfl, id, hv⟩

/-- A run of loads changes the registers alone, and ends or stops at an address out of bounds. -/
theorem accessUp_loadAt_cases (n k : Nat) (s : State) :
    (∃ v, accessUp (fun j t => State.loadAt t j) k n s = .ok { s with v := v }) ∨
    (∃ v e, accessUp (fun j t => State.loadAt t j) k n s = .outOfBounds { s with v := v } (s.indexed e) ∧
      ¬ validAddr s.params (s.indexed e)) := by
  induction n generalizing k s with
  | zero => exact .inl ⟨s.v, rfl⟩
  | succ n ih =>
    by_cases hv : validAddr s.params (s.indexed k)
    · rw [accessUp_succ_ok (body := fun j t => State.loadAt t j) (loadAt_valid hv)]
      exact ih (k + 1) (s.setV _ _)
    · rw [accessUp_succ_outOfBounds (body := fun j t => State.loadAt t j) (loadAt_invalid hv)]
      exact .inr ⟨s.v, k, rfl, hv⟩

/-- A run of sprite rows changes the framebuffer alone, leaves the grid a grid, and ends or stops at an address out of
bounds. -/
theorem accessUp_drawRow_cases (x0 y0 n k : Nat) (s : State) (c : Bool) :
    (∃ fb c', accessUp (drawRow x0 y0) k n (s, c) = .ok (s.setFb fb, c') ∧
      (Framebuffer.wf s.params s.fb → Framebuffer.wf s.params fb)) ∨
    (∃ fb c' e, accessUp (drawRow x0 y0) k n (s, c) = .outOfBounds (s.setFb fb, c') (s.indexed e) ∧
      (Framebuffer.wf s.params s.fb → Framebuffer.wf s.params fb) ∧ ¬ validAddr s.params (s.indexed e)) := by
  induction n generalizing k s c with
  | zero => exact .inl ⟨s.fb, c, rfl, id⟩
  | succ n ih =>
    by_cases hv : validAddr s.params (s.indexed k)
    · rw [accessUp_succ_ok (drawRow_valid x0 y0 (sa := (s, c)) hv)]
      have hd := fun hw : Framebuffer.wf s.params s.fb =>
        drawByte_wf hw x0 (y0 + k) (Memory.get s.params s.mem (s.i.toNat + k))
      rcases ih (k + 1) (s.setFb _) _ with ⟨fb, c', h, hw⟩ | ⟨fb, c', e, h, hw, he⟩
      · exact .inl ⟨fb, c', h, fun hs => hw (hd hs)⟩
      · exact .inr ⟨fb, c', e, h, fun hs => hw (hd hs), he⟩
    · rw [accessUp_succ_outOfBounds (drawRow_invalid x0 y0 (sa := (s, c)) hv)]
      exact .inr ⟨s.fb, c, k, rfl, id, hv⟩

/-! ### Ports and skips -/

/-- The random port answers a byte and changes itself and the draw counter alone. -/
theorem rndNext_cases (s : State) : ∃ b l d, s.rndNext = (b, { s with rnd := l, draws := d }) := by
  cases h : s.rnd with
  | nil => exact ⟨_, [], _, (rndNext_free h).trans (by rw [← h])⟩
  | cons b bs => exact ⟨_, _, s.draws, (rndNext_supplied h).trans rfl⟩

/-- A skip leaves PC or adds 2 to it. -/
theorem effect_skipIf (s : State) (i : Instr) (hi : setsPc i) (p : Bool) : Effect s i (s.skipIf p) := by
  cases p
  · exact .jumped i s.pc hi (.inr (.inl rfl))
  · exact .jumped i (s.pc + 2#16) hi (.inr (.inr (.inl rfl)))

/-- A run of stores as an effect. -/
theorem effect_store (s : State) (i : Instr) (hi : storesBytes i) (g : State → Nat → Byte) (n : Nat) :
    Effect s i (settle (encode i) (accessUp (fun j t => t.storeAt j (g t j)) 0 n s)) := by
  rcases accessUp_storeAt_cases g n 0 s with ⟨m, h, hw⟩ | ⟨m, e, h, hw, hv⟩ <;> rw [h]
  · exact .stored i m hi hw
  · exact .storedInPart i m e hi hw hv

/-! ### Every instruction -/

/-- Every next state of every instruction is one of the shapes of `Effect`. -/
theorem exec_effect {i : Instr} {s t : State} (h : exec i s = .next t) : Effect s i t := by
  cases i
  case cls => cases h; exact .clear
  case ret =>
    simp only [exec, execRet] at h
    rcases List.eq_nil_or_concat s.stack with hs | ⟨st, a, hs⟩
    · rw [pop_nil hs] at h; cases h; exact .underflow hs
    · rw [List.concat_eq_append] at hs
      rw [pop_append hs] at h; cases h; exact .popped st a hs
  case jp nnn => cases h; exact .jumped _ _ trivial (.inl (by simp [zext16]; omega))
  case call nnn =>
    simp only [exec, execCall] at h
    by_cases hd : s.params.stackDepth = some s.stack.length
    · rw [push_of_full ((stackFull_iff s).2 hd)] at h; cases h; exact .overflow nnn hd
    · have hf : s.stackFull = false := by rw [← Bool.not_eq_true, stackFull_iff]; exact hd
      rw [push_of_not_full hf] at h; cases h; exact .pushed nnn hd
  case seImm => cases h; exact effect_skipIf _ _ (by exact trivial) _
  case sneImm => cases h; exact effect_skipIf _ _ (by exact trivial) _
  case seReg => cases h; exact effect_skipIf _ _ (by exact trivial) _
  case sneReg => cases h; exact effect_skipIf _ _ (by exact trivial) _
  case skp => cases h; exact effect_skipIf _ _ (by exact trivial) _
  case sknp => cases h; exact effect_skipIf _ _ (by exact trivial) _
  case jpV0 nnn =>
    cases h
    have := (s.getV 0#4).isLt
    exact .jumped _ _ trivial (.inl (by simp only [BitVec.toNat_ofNat]; omega))
  case ldI nnn => cases h; exact .index _ _ trivial fun _ => by simp [zext16]; omega
  case addI x => cases h; exact .index _ _ trivial fun _ => by simp; omega
  case ldF x =>
    cases h
    have : (lowNibble (s.getV x)).toNat < 16 := (lowNibble (s.getV x)).isLt
    refine .index _ _ trivial fun hp => ?_
    have hm := Nat.mul_le_mul_right s.params.glyphSize (Nat.le_of_lt_succ this)
    have := hp.2.2.2.2.1
    rw [fontAddr, BitVec.toNat_ofNat]
    exact Nat.le_trans (Nat.mod_le _ _) (by omega)
  case rnd x nn =>
    cases h
    obtain ⟨b, l, d, hr⟩ := rndNext_cases s
    rw [hr]; exact .registers _ _ l d (by simp) (by simp)
  case drw x y n =>
    simp only [exec, execDrw] at h
    rcases accessUp_drawRow_cases (s.getV x).toNat (s.getV y).toNat n.toNat 0 s false with
      ⟨fb, c, hd, hw⟩ | ⟨fb, c, e, hd, hw, he⟩ <;> rw [hd] at h <;> cases h
    · exact .drawn _ _ _ _ _ hw
    · exact .drawnInPart _ _ _ _ _ hw he
  case ldVxK x =>
    simp only [exec, execLdVxK] at h
    rcases keyAny_cases s with ⟨_, hk⟩ | ⟨k, _, hk, hs⟩
    · rw [hk] at h; cases h; exact .jumped _ _ trivial (.inr (.inr (.inr rfl)))
    · rw [hk, hs] at h; cases h; exact .registers _ _ s.rnd _ (by simp) (by simp)
  case ldDTVx => cases h; exact .delay _ _
  case ldSTVx => cases h; exact .sound _ _
  case ldB x => cases h; exact effect_store s _ (by exact trivial) (fun _ k => bcdDigit (s.getV x) k) 3
  case storeRegs x => cases h; exact effect_store s _ (by exact trivial) (fun t k => t.getV (BitVec.ofNat 4 k)) (x.toNat + 1)
  case loadRegs x =>
    simp only [exec, execLoadRegs] at h
    rcases accessUp_loadAt_cases (x.toNat + 1) 0 s with ⟨v, hd⟩ | ⟨v, e, hd, he⟩ <;> rw [hd] at h <;> cases h
    · exact .registers _ _ s.rnd s.draws (by simp) (by simp)
    · exact .loadedInPart _ _ _ he
  all_goals (cases h; exact .registers _ _ s.rnd s.draws (by simp) (by simp))

/-! ### Every operation of the host -/

/-- No instruction changes what the host will issue. -/
theorem exec_order {i : Instr} {s t : State} (h : exec i s = .next t) : t.schedule = s.schedule ∧ t.later = s.later := by
  cases exec_effect h <;> exact ⟨rfl, rfl⟩

/-- No operation of the host changes what it will issue after it. -/
theorem perform_order {op : HostOp} {s t : State} (h : perform op s = .next t) :
    t.schedule = s.schedule ∧ t.later = s.later := by
  cases op with
  | step =>
    rcases stepOp_cases s with ⟨r, _, hs⟩ | ⟨a, _, _, hs⟩ | ⟨w, _, _, _, hs⟩ | ⟨w, i, _, _, _, hs⟩ <;>
      rw [show perform .step s = stepOp s from rfl, hs] at h
    · cases h; exact ⟨rfl, rfl⟩
    · cases h; exact ⟨rfl, rfl⟩
    · cases h; exact ⟨rfl, rfl⟩
    · exact exec_order (s := s.closeRom.advance) h
  | load rom => simp only [perform] at h; split at h <;> cases h; exact ⟨rfl, rfl⟩
  | tick | setKeys | reset => cases h; exact ⟨rfl, rfl⟩

end Sys2Proof.Machine
end

