-- ==== Sys2Proof/Laws/PerInstr.lean ====
section
/-! SUPPORT. Statements made of every instruction as syntax, one lemma per constructor. -/

namespace Sys2Proof.Laws.EncodedInRow

/-- The word of a well-formed instruction matches the row of the opcode map that is its own (30_encoding.md R84, R86). -/
def Statement (i : Instr) : Prop :=
  ∀ strict : Bool, i.wf strict = true → ∃ r ∈ opcodeRows strict, r.num = i.row ∧ r.matchesWord (encode i) = true

/-- A row with mask 0xF000 matches the words of its category. -/
theorem row_F000 (k : Nat) (c : Nibble) (i : Instr) (hk : k = i.row) (h : fieldC (encode i) = c)
    (hr : ∀ strict, (⟨k, 0xF000#16, c ++ 0#12⟩ : OpcodeRow) ∈ opcodeRows strict) : Statement i :=
  fun strict _ => ⟨_, hr strict, hk, beq_iff_eq.2 ((match_F000 _ c).2 h)⟩

/-- A row with mask 0xF00F matches the words of its category and low nibble. -/
theorem row_F00F (k : Nat) (c n : Nibble) (i : Instr) (hk : k = i.row)
    (h : fieldC (encode i) = c ∧ fieldN (encode i) = n)
    (hr : ∀ strict, (⟨k, 0xF00F#16, c ++ 0#4 ++ 0#4 ++ n⟩ : OpcodeRow) ∈ opcodeRows strict) : Statement i :=
  fun strict _ => ⟨_, hr strict, hk, beq_iff_eq.2 ((match_F00F _ c n).2 h)⟩

/-- A row with mask 0xF0FF matches the words of its category and low byte. -/
theorem row_F0FF (k : Nat) (c : Nibble) (nn : Byte) (i : Instr) (hk : k = i.row)
    (h : fieldC (encode i) = c ∧ fieldNN (encode i) = nn)
    (hr : ∀ strict, (⟨k, 0xF0FF#16, c ++ 0#4 ++ nn⟩ : OpcodeRow) ∈ opcodeRows strict) : Statement i :=
  fun strict _ => ⟨_, hr strict, hk, beq_iff_eq.2 ((match_F0FF _ c nn).2 h)⟩

/-- A row of a register skip: 0xF000, or 0xF00F where `STRICT_5_9` holds and the ignored nibble is therefore 0. -/
theorem row_skip (k : Nat) (c n : Nibble) (i : Instr) (hk : k = i.row) (hc : fieldC (encode i) = c)
    (hn : fieldN (encode i) = n) (hw : i.wf true = true → n = 0#4)
    (hr : ∀ strict, (⟨k, skipMask strict, c ++ 0#12⟩ : OpcodeRow) ∈ opcodeRows strict) : Statement i
  | false, _ => ⟨_, hr false, hk, beq_iff_eq.2 ((match_F000 _ c).2 hc)⟩
  | true, h => ⟨_, hr true, hk, beq_iff_eq.2 (by
      have h0 : ∀ c : Nibble, c ++ 0#12 = c ++ 0#4 ++ 0#4 ++ 0#4 := by decide
      rw [h0 c]
      exact (match_F00F _ c 0#4).2 ⟨hc, hn.trans (hw h)⟩)⟩

theorem cls : Statement .cls :=
  fun strict _ => ⟨⟨1, 0xFFFF#16, 0x00E0#16⟩, by cases strict <;> decide, rfl, by decide⟩

theorem ret : Statement .ret :=
  fun strict _ => ⟨⟨2, 0xFFFF#16, 0x00EE#16⟩, by cases strict <;> decide, rfl, by decide⟩

theorem jp (nnn : Addr12) : Statement (.jp nnn) :=
  row_F000 3 0x1#4 _ rfl (by simp [encode]) (by decide)

theorem call (nnn : Addr12) : Statement (.call nnn) :=
  row_F000 4 0x2#4 _ rfl (by simp [encode]) (by decide)

theorem seImm (x : Nibble) (nn : Byte) : Statement (.seImm x nn) :=
  row_F000 5 0x3#4 _ rfl (by simp [encode]) (by decide)

theorem sneImm (x : Nibble) (nn : Byte) : Statement (.sneImm x nn) :=
  row_F000 6 0x4#4 _ rfl (by simp [encode]) (by decide)

theorem seReg (x : Nibble) (y : Nibble) (n : Nibble) : Statement (.seReg x y n) :=
  row_skip 7 0x5#4 n _ rfl (by simp [encode]) (by simp [encode]) (by simp [Instr.wf]) (by decide)

theorem ldImm (x : Nibble) (nn : Byte) : Statement (.ldImm x nn) :=
  row_F000 8 0x6#4 _ rfl (by simp [encode]) (by decide)

theorem addImm (x : Nibble) (nn : Byte) : Statement (.addImm x nn) :=
  row_F000 9 0x7#4 _ rfl (by simp [encode]) (by decide)

theorem ldReg (x : Nibble) (y : Nibble) : Statement (.ldReg x y) :=
  row_F00F 10 0x8#4 0x0#4 _ rfl (by simp [encode]) (by decide)

theorem orReg (x : Nibble) (y : Nibble) : Statement (.orReg x y) :=
  row_F00F 11 0x8#4 0x1#4 _ rfl (by simp [encode]) (by decide)

theorem andReg (x : Nibble) (y : Nibble) : Statement (.andReg x y) :=
  row_F00F 12 0x8#4 0x2#4 _ rfl (by simp [encode]) (by decide)

theorem xorReg (x : Nibble) (y : Nibble) : Statement (.xorReg x y) :=
  row_F00F 13 0x8#4 0x3#4 _ rfl (by simp [encode]) (by decide)

theorem addReg (x : Nibble) (y : Nibble) : Statement (.addReg x y) :=
  row_F00F 14 0x8#4 0x4#4 _ rfl (by simp [encode]) (by decide)

theorem sub (x : Nibble) (y : Nibble) : Statement (.sub x y) :=
  row_F00F 15 0x8#4 0x5#4 _ rfl (by simp [encode]) (by decide)

theorem shr (x : Nibble) (y : Nibble) : Statement (.shr x y) :=
  row_F00F 16 0x8#4 0x6#4 _ rfl (by simp [encode]) (by decide)

theorem subn (x : Nibble) (y : Nibble) : Statement (.subn x y) :=
  row_F00F 17 0x8#4 0x7#4 _ rfl (by simp [encode]) (by decide)

theorem shl (x : Nibble) (y : Nibble) : Statement (.shl x y) :=
  row_F00F 18 0x8#4 0xE#4 _ rfl (by simp [encode]) (by decide)

theorem sneReg (x : Nibble) (y : Nibble) (n : Nibble) : Statement (.sneReg x y n) :=
  row_skip 19 0x9#4 n _ rfl (by simp [encode]) (by simp [encode]) (by simp [Instr.wf]) (by decide)

theorem ldI (nnn : Addr12) : Statement (.ldI nnn) :=
  row_F000 20 0xA#4 _ rfl (by simp [encode]) (by decide)

theorem jpV0 (nnn : Addr12) : Statement (.jpV0 nnn) :=
  row_F000 21 0xB#4 _ rfl (by simp [encode]) (by decide)

theorem rnd (x : Nibble) (nn : Byte) : Statement (.rnd x nn) :=
  row_F000 22 0xC#4 _ rfl (by simp [encode]) (by decide)

theorem drw (x : Nibble) (y : Nibble) (n : Nibble) : Statement (.drw x y n) :=
  row_F000 23 0xD#4 _ rfl (by simp [encode]) (by decide)

theorem skp (x : Nibble) : Statement (.skp x) :=
  row_F0FF 24 0xE#4 0x9E#8 _ rfl (by simp [encode]) (by decide)

theorem sknp (x : Nibble) : Statement (.sknp x) :=
  row_F0FF 25 0xE#4 0xA1#8 _ rfl (by simp [encode]) (by decide)

theorem ldVxDT (x : Nibble) : Statement (.ldVxDT x) :=
  row_F0FF 26 0xF#4 0x07#8 _ rfl (by simp [encode]) (by decide)

theorem ldVxK (x : Nibble) : Statement (.ldVxK x) :=
  row_F0FF 27 0xF#4 0x0A#8 _ rfl (by simp [encode]) (by decide)

theorem ldDTVx (x : Nibble) : Statement (.ldDTVx x) :=
  row_F0FF 28 0xF#4 0x15#8 _ rfl (by simp [encode]) (by decide)

theorem ldSTVx (x : Nibble) : Statement (.ldSTVx x) :=
  row_F0FF 29 0xF#4 0x18#8 _ rfl (by simp [encode]) (by decide)

theorem addI (x : Nibble) : Statement (.addI x) :=
  row_F0FF 30 0xF#4 0x1E#8 _ rfl (by simp [encode]) (by decide)

theorem ldF (x : Nibble) : Statement (.ldF x) :=
  row_F0FF 31 0xF#4 0x29#8 _ rfl (by simp [encode]) (by decide)

theorem ldB (x : Nibble) : Statement (.ldB x) :=
  row_F0FF 32 0xF#4 0x33#8 _ rfl (by simp [encode]) (by decide)

theorem storeRegs (x : Nibble) : Statement (.storeRegs x) :=
  row_F0FF 33 0xF#4 0x55#8 _ rfl (by simp [encode]) (by decide)

theorem loadRegs (x : Nibble) : Statement (.loadRegs x) :=
  row_F0FF 34 0xF#4 0x65#8 _ rfl (by simp [encode]) (by decide)

end Sys2Proof.Laws.EncodedInRow
end

