-- ==== Sys2Proof/Tests/Slice0.lean ====
section
/-! SUPPORT. Tests of the model on fixed values, and for every statement with hypotheses a state and operands that meet
them. Expected values come from spec/95_test_vectors.md (named S, C, I, A, X, D, K, T, M, L as there) or, for words, from
the encodings of spec/30_encoding.md R84 written out by hand. -/

namespace Sys2Proof.Tests

open Sys2Proof Sys2Proof.Machine

/-! ### Small states -/

/-- A state inside a STEP that fetched at 0x200: PC is P + 2. -/
def inStep : State := { State.reset with pc := 0x202#16, romOpen := false }

/-- With registers. -/
def withV (rs : List (Nibble × Byte)) (s : State) : State := rs.foldl (fun t r => t.setV r.1 r.2) s

/-- With I, and bytes written from it on. -/
def withI (i : Word) (bs : List Byte) (s : State) : State := { s with i := i, mem := Memory.setRun s.params s.mem i.toNat bs }

/-- With one key pressed. -/
def withKey (k : Nibble) (s : State) : State := { s with keys := s.keys.set k.toNat true k.isLt }

/-- With a latched fault: code 2, at 0x200, word 00EE (95 Program 6). -/
def faulted : State := { inStep with fault := some ⟨.stackUnderflow, 0x200#16, some 0x00EE#16, none, none⟩ }

/-- What a view shows of the next state of an instruction. -/
def after {α : Type} (i : Instr) (s : State) (f : State → α) : Option α :=
  match exec i s with
  | .next t => some (f t)
  | .fault _ => none
  | .refused _ => none

/-- What a view shows of the next state of a step. -/
def afterStep {α : Type} (s : State) (f : State → α) : Option α :=
  match step s with
  | .next t => some (f t)
  | .fault _ => none
  | .refused _ => none

/-! ### Well-formedness: an ill-formed term for each check -/

theorem test_seReg_low_nibble_refused_when_strict : Instr.wf true (.seReg 0x1#4 0x2#4 0x1#4) = false := by decide
theorem test_sneReg_low_nibble_refused_when_strict : Instr.wf true (.sneReg 0x1#4 0x2#4 0xF#4) = false := by decide
theorem test_skips_well_formed_when_lenient :
    Instr.wf false (.seReg 0x1#4 0x2#4 0x1#4) = true ∧ Instr.wf false (.sneReg 0x1#4 0x2#4 0xF#4) = true := by decide

/-! ### Parameters: this hardware is an instance; an ill-formed term for each check -/

/-- Another instance: one glyph more, 3 rows each, a small screen, a small memory, a program at 0x300. -/
def otherParams : Params where
  memCapacity := 2048
  programOffset := 0x300
  fontBase := 0
  glyphCount := 17
  glyphSize := 3
  fontTable := List.replicate 51 0xA0#8
  fbWidth := 10
  fbHeight := 4
  stackDepth := some 1
  strict59 := true

theorem test_reference_params_are_an_instance : paramsWf referenceParams := by decide
theorem test_other_params_are_an_instance : paramsWf otherParams := by decide
theorem test_font_of_wrong_length_refused : ¬ fontShape { referenceParams with glyphSize := 6 } := by decide
/-- R10: a row is packed into the top nibble. -/
theorem test_font_row_in_low_nibble_refused :
    ¬ fontShape { referenceParams with fontTable := fontTable.set 79 0x81#8 } := by decide
theorem test_fewer_glyphs_than_nibbles_refused :
    ¬ paramsWf { referenceParams with glyphCount := 15, fontTable := fontTable.take 75 } := by decide
theorem test_glyphs_without_rows_refused : ¬ paramsWf { referenceParams with glyphSize := 0, fontTable := [] } := by decide
theorem test_font_outside_memory_refused : ¬ paramsWf { referenceParams with memCapacity := 0x9F, programOffset := 0 } := by
  decide
theorem test_font_out_of_reach_of_i_refused :
    ¬ paramsWf { referenceParams with memCapacity := 0x2000, fontBase := 0xFB5 } := by decide
theorem test_program_outside_memory_refused : ¬ paramsWf { referenceParams with programOffset := 4094 } := by decide
theorem test_memory_too_large_for_pc_refused : ¬ paramsWf { referenceParams with memCapacity := 0x7FFE } := by decide

/-! ### Decoding: words written out from R84 -/

theorem test_decode_display_and_flow :
    decode false 0x00E0#16 = .instr .cls ∧ decode false 0x00EE#16 = .instr .ret ∧
    decode false 0x1ABC#16 = .instr (.jp 0xABC#12) ∧ decode false 0x2210#16 = .instr (.call 0x210#12) ∧
    decode false 0xB300#16 = .instr (.jpV0 0x300#12) := by decide

theorem test_decode_skips :
    decode false 0x3342#16 = .instr (.seImm 0x3#4 0x42#8) ∧ decode false 0x4511#16 = .instr (.sneImm 0x5#4 0x11#8) ∧
    decode false 0x5560#16 = .instr (.seReg 0x5#4 0x6#4 0x0#4) ∧ decode false 0x9567#16 = .instr (.sneReg 0x5#4 0x6#4 0x7#4) ∧
    decode false 0xE59E#16 = .instr (.skp 0x5#4) ∧ decode false 0xE5A1#16 = .instr (.sknp 0x5#4) := by decide

theorem test_decode_immediate_and_index :
    decode false 0x6A2B#16 = .instr (.ldImm 0xA#4 0x2B#8) ∧ decode false 0x71F0#16 = .instr (.addImm 0x1#4 0xF0#8) ∧
    decode false 0xA300#16 = .instr (.ldI 0x300#12) ∧ decode false 0xC30F#16 = .instr (.rnd 0x3#4 0x0F#8) ∧
    decode false 0xF21E#16 = .instr (.addI 0x2#4) := by decide

theorem test_decode_category_8 :
    decode false 0x8120#16 = .instr (.ldReg 0x1#4 0x2#4) ∧ decode false 0x8121#16 = .instr (.orReg 0x1#4 0x2#4) ∧
    decode false 0x8122#16 = .instr (.andReg 0x1#4 0x2#4) ∧ decode false 0x8123#16 = .instr (.xorReg 0x1#4 0x2#4) ∧
    decode false 0x8124#16 = .instr (.addReg 0x1#4 0x2#4) ∧ decode false 0x8125#16 = .instr (.sub 0x1#4 0x2#4) ∧
    decode false 0x8AB6#16 = .instr (.shr 0xA#4 0xB#4) ∧ decode false 0x8127#16 = .instr (.subn 0x1#4 0x2#4) ∧
    decode false 0x8ABE#16 = .instr (.shl 0xA#4 0xB#4) := by decide

theorem test_decode_drawing_and_timers :
    decode false 0xD125#16 = .instr (.drw 0x1#4 0x2#4 0x5#4) ∧ decode false 0xF307#16 = .instr (.ldVxDT 0x3#4) ∧
    decode false 0xF20A#16 = .instr (.ldVxK 0x2#4) ∧ decode false 0xF315#16 = .instr (.ldDTVx 0x3#4) ∧
    decode false 0xF418#16 = .instr (.ldSTVx 0x4#4) := by decide

theorem test_decode_memory :
    decode false 0xF029#16 = .instr (.ldF 0x0#4) ∧ decode false 0xF433#16 = .instr (.ldB 0x4#4) ∧
    decode false 0xF255#16 = .instr (.storeRegs 0x2#4) ∧ decode false 0xF265#16 = .instr (.loadRegs 0x2#4) := by decide

/-- 0x0000 and 0NNN (R88), an unused selector of each of 0x8, 0xE, 0xF (R87), and 5XY1 when strict (R86). -/
theorem test_illegal_words :
    decode false 0x0000#16 = .invalidOpcode 0x0000#16 ∧ decode false 0x01E0#16 = .invalidOpcode 0x01E0#16 ∧
    decode false 0x8128#16 = .invalidOpcode 0x8128#16 ∧ decode false 0xE59F#16 = .invalidOpcode 0xE59F#16 ∧
    decode false 0xF000#16 = .invalidOpcode 0xF000#16 ∧ decode true 0x5121#16 = .invalidOpcode 0x5121#16 := by decide

/-- The table's bit numbering (bit 0 the least significant), and the bytes high first (R55). -/
theorem test_table_word :
    decodeTableWord 16 0x6A2B = some (.ldImm 0xA#4 0x2B#8) ∧ decodeTableWord 16 0x0000 = none ∧
    encodeBytes (.ldImm 0xA#4 0x2B#8) = [0x6A#8, 0x2B#8] ∧
    decodeBytes false [0x12#8, 0x00#8, 0xFF#8] = .instr (.jp 0x200#12) [0xFF#8] ∧
    decodeBytes false [0x12#8] = .truncated := by decide

/-! ### Control flow -/

/-- C2. -/
theorem test_call : after (.call 0x300#12) inStep (fun t => (t.stack, t.pc)) = some ([0x202#16], 0x300#16) := by decide
/-- C5. -/
theorem test_call_full :
    after (.call 0x500#12) { inStep with
        pc := 0x402#16, stack := [0x202#16, 0x302#16], params := { referenceParams with stackDepth := some 2 } }
      (fun t => (t.stack, t.fault)) =
    some ([0x202#16, 0x302#16], some ⟨.stackOverflow, 0x400#16, some 0x2500#16, none, some 2⟩) := by decide
/-- C3. -/
theorem test_ret : after .ret { inStep with pc := 0x302#16, stack := [0x202#16] } (fun t => (t.stack, t.pc)) =
    some ([], 0x202#16) := by decide
/-- C4. -/
theorem test_ret_empty : after .ret inStep (fun t => (t.pc, t.fault)) =
    some (0x202#16, some ⟨.stackUnderflow, 0x200#16, some 0x00EE#16, none, none⟩) := by decide
/-- R102's example. -/
theorem test_jp : after (.jp 0xABC#12) inStep (·.pc) = some 0xABC#16 := by decide
/-- C15, C16. -/
theorem test_jpV0 :
    after (.jpV0 0x300#12) (withV [(0x0#4, 0x04#8)] inStep) (·.pc) = some 0x304#16 ∧
    after (.jpV0 0xFFF#12) (withV [(0x0#4, 0xFF#8)] inStep) (·.pc) = some 0x10FE#16 := by decide
/-- C7, C8. -/
theorem test_seImm :
    after (.seImm 0x5#4 0x10#8) (withV [(0x5#4, 0x10#8)] inStep) (·.pc) = some 0x204#16 ∧
    after (.seImm 0x5#4 0x11#8) (withV [(0x5#4, 0x10#8)] inStep) (·.pc) = some 0x202#16 := by decide
/-- C9, C10. -/
theorem test_sneImm :
    after (.sneImm 0x5#4 0x11#8) (withV [(0x5#4, 0x10#8)] inStep) (·.pc) = some 0x204#16 ∧
    after (.sneImm 0x5#4 0x10#8) (withV [(0x5#4, 0x10#8)] inStep) (·.pc) = some 0x202#16 := by decide
/-- C11, and a pair that differs. -/
theorem test_seReg :
    after (.seReg 0x5#4 0x6#4 0x0#4) (withV [(0x5#4, 0x10#8), (0x6#4, 0x10#8)] inStep) (·.pc) = some 0x204#16 ∧
    after (.seReg 0x5#4 0x6#4 0x1#4) (withV [(0x5#4, 0x10#8), (0x6#4, 0x11#8)] inStep) (·.pc) = some 0x202#16 := by decide
/-- C13, C14. -/
theorem test_sneReg :
    after (.sneReg 0x5#4 0x6#4 0x0#4) (withV [(0x5#4, 0x10#8), (0x6#4, 0x11#8)] inStep) (·.pc) = some 0x204#16 ∧
    after (.sneReg 0x5#4 0x5#4 0x0#4) (withV [(0x5#4, 0x10#8)] inStep) (·.pc) = some 0x202#16 := by decide

/-! ### Registers -/

/-- I1. -/
theorem test_ldImm : after (.ldImm 0x3#4 0xAB#8) inStep (·.getV 0x3#4) = some 0xAB#8 := by decide
/-- I3, I5. -/
theorem test_addImm :
    after (.addImm 0x1#4 0x01#8) (withV [(0x1#4, 0xFF#8), (0xF#4, 0x55#8)] inStep) (fun t => (t.getV 0x1#4, t.getV 0xF#4)) =
      some (0x00#8, 0x55#8) ∧
    after (.addImm 0xF#4 0x05#8) (withV [(0xF#4, 0x10#8)] inStep) (·.getV 0xF#4) = some 0x15#8 := by decide
/-- A1. -/
theorem test_ldReg : after (.ldReg 0x1#4 0x2#4) (withV [(0x2#4, 0xAB#8)] inStep) (·.getV 0x1#4) = some 0xAB#8 := by decide
/-- A2. -/
theorem test_or : after (.orReg 0x1#4 0x2#4) (withV [(0x1#4, 0x0F#8), (0x2#4, 0xF0#8), (0xF#4, 0x33#8)] inStep)
    (fun t => (t.getV 0x1#4, t.getV 0xF#4)) = some (0xFF#8, 0x33#8) := by decide
/-- A4. -/
theorem test_and : after (.andReg 0x1#4 0x2#4) (withV [(0x1#4, 0x3C#8), (0x2#4, 0x0F#8), (0xF#4, 0x33#8)] inStep)
    (fun t => (t.getV 0x1#4, t.getV 0xF#4)) = some (0x0C#8, 0x33#8) := by decide
/-- R134's example. -/
theorem test_xor : after (.xorReg 0x1#4 0x2#4) (withV [(0x1#4, 0xF0#8), (0x2#4, 0x3C#8), (0xF#4, 0x33#8)] inStep)
    (fun t => (t.getV 0x1#4, t.getV 0xF#4)) = some (0xCC#8, 0x33#8) := by decide
/-- A7, A8. -/
theorem test_addReg :
    after (.addReg 0x1#4 0x2#4) (withV [(0x1#4, 0xFF#8), (0x2#4, 0xFF#8)] inStep) (fun t => (t.getV 0x1#4, t.getV 0xF#4)) =
      some (0xFE#8, 0x01#8) ∧
    after (.addReg 0xF#4 0x1#4) (withV [(0xF#4, 0xFF#8), (0x1#4, 0x01#8)] inStep) (·.getV 0xF#4) = some 0x01#8 := by decide
/-- A9: VF as the second operand is its old value. -/
theorem test_addReg_vf_operand :
    after (.addReg 0x1#4 0xF#4) (withV [(0x1#4, 0x10#8), (0xF#4, 0x20#8)] inStep) (fun t => (t.getV 0x1#4, t.getV 0xF#4)) =
      some (0x30#8, 0x00#8) := by decide
/-- A10, A11. -/
theorem test_sub :
    after (.sub 0x1#4 0x2#4) (withV [(0x1#4, 0x07#8), (0x2#4, 0x07#8)] inStep) (fun t => (t.getV 0x1#4, t.getV 0xF#4)) =
      some (0x00#8, 0x01#8) ∧
    after (.sub 0x1#4 0x2#4) (withV [(0x2#4, 0x01#8)] inStep) (fun t => (t.getV 0x1#4, t.getV 0xF#4)) =
      some (0xFF#8, 0x00#8) := by decide
/-- A13, A14. -/
theorem test_subn :
    after (.subn 0x1#4 0x2#4) (withV [(0x1#4, 0x05#8), (0x2#4, 0x0A#8)] inStep) (fun t => (t.getV 0x1#4, t.getV 0xF#4)) =
      some (0x05#8, 0x01#8) ∧
    after (.subn 0x1#4 0x2#4) (withV [(0x1#4, 0x0A#8), (0x2#4, 0x05#8)] inStep) (fun t => (t.getV 0x1#4, t.getV 0xF#4)) =
      some (0xFB#8, 0x00#8) := by decide
/-- A18, A19. -/
theorem test_shr :
    after (.shr 0x1#4 0x2#4) (withV [(0x1#4, 0x04#8), (0x2#4, 0xFF#8)] inStep) (fun t => (t.getV 0x1#4, t.getV 0xF#4)) =
      some (0x02#8, 0x00#8) ∧
    after (.shr 0xF#4 0xF#4) (withV [(0xF#4, 0x03#8)] inStep) (·.getV 0xF#4) = some 0x01#8 := by decide
/-- A21, A24. -/
theorem test_shl :
    after (.shl 0x1#4 0x1#4) (withV [(0x1#4, 0x81#8)] inStep) (fun t => (t.getV 0x1#4, t.getV 0xF#4)) =
      some (0x02#8, 0x01#8) ∧
    after (.shl 0x1#4 0x2#4) (withV [(0x1#4, 0x01#8), (0x2#4, 0xFF#8)] inStep) (fun t => (t.getV 0x1#4, t.getV 0xF#4)) =
      some (0x02#8, 0x00#8) := by decide

/-! ### Index and random -/

/-- X1. -/
theorem test_ldI : after (.ldI 0xFFF#12) inStep (·.i) = some 0xFFF#16 := by decide
/-- X3, X4. -/
theorem test_addI :
    after (.addI 0x0#4) (withV [(0x0#4, 0x01#8), (0xF#4, 0x33#8)] { inStep with i := 0xFFF#16 })
      (fun t => (t.i, t.getV 0xF#4)) = some (0x000#16, 0x33#8) ∧
    after (.addI 0x2#4) (withV [(0x2#4, 0xFF#8)] { inStep with i := 0xFF0#16 }) (·.i) = some 0x0EF#16 := by decide
/-- X6. -/
theorem test_rnd : after (.rnd 0x3#4 0x0F#8) { inStep with rnd := [0xA7#8] } (fun t => (t.getV 0x3#4, t.rnd)) =
    some (0x07#8, []) := by decide

/-! ### Display -/

/-- D1. -/
theorem test_cls : after .cls { inStep with fb := inStep.fb.setPixel 5 6 true } (fun t => (t.readPixel 5 6, t.getV 0xF#4)) =
    some (false, 0x00#8) := by decide
/-- D8: a set pixel under a 1 bit is cleared, and VF says so. -/
theorem test_drw_collides :
    after (.drw 0x0#4 0x1#4 0x1#4) (withI 0x300#16 [0x04#8] { inStep with fb := inStep.fb.setPixel 5 0 true })
      (fun t => (t.readPixel 5 0, t.getV 0xF#4)) = some (false, 0x01#8) := by decide
/-- D12: clipped at the right edge, not wrapped. -/
theorem test_drw_clips :
    after (.drw 0x0#4 0x1#4 0x1#4) (withI 0x300#16 [0xFF#8] (withV [(0x0#4, 0x3E#8)] inStep))
      (fun t => (t.readPixel 62 0, t.readPixel 63 0, t.readPixel 0 0, t.getV 0xF#4)) =
    some (true, true, false, 0x00#8) := by decide

/-! ### Keyboard and timers -/

/-- K1, K2. -/
theorem test_skp :
    after (.skp 0x5#4) (withKey 0xA#4 (withV [(0x5#4, 0x1A#8)] inStep)) (·.pc) = some 0x204#16 ∧
    after (.skp 0x5#4) (withV [(0x5#4, 0x0A#8)] inStep) (·.pc) = some 0x202#16 := by decide
/-- K3, K4. -/
theorem test_sknp :
    after (.sknp 0x5#4) (withKey 0xA#4 (withV [(0x5#4, 0x0A#8)] inStep)) (·.pc) = some 0x202#16 ∧
    after (.sknp 0x5#4) (withV [(0x5#4, 0x0A#8)] inStep) (·.pc) = some 0x204#16 := by decide
/-- K5. -/
theorem test_ldVxDT : after (.ldVxDT 0x1#4) { inStep with dt := 0x3C#8 } (·.getV 0x1#4) = some 0x3C#8 := by decide
/-- K6. -/
theorem test_ldDTVx : after (.ldDTVx 0x1#4) (withV [(0x1#4, 0x05#8)] inStep) (·.dt) = some 0x05#8 := by decide
/-- K7. -/
theorem test_ldSTVx : after (.ldSTVx 0x1#4) { inStep with st := 0x01#8 } (fun t => (t.st, t.soundEdge)) =
    some (0x00#8, false) := by decide
/-- K8, K9. -/
theorem test_ldVxK :
    after (.ldVxK 0x2#4) { inStep with pc := 0x20A#16 } (·.pc) = some 0x208#16 ∧
    after (.ldVxK 0x2#4) (withKey 0x7#4 { inStep with pc := 0x20A#16 }) (fun t => (t.getV 0x2#4, t.pc)) =
      some (0x07#8, 0x20A#16) := by decide

/-! ### Memory operations -/

/-- M2. -/
theorem test_ldF : after (.ldF 0x0#4) (withV [(0x0#4, 0x1B#8)] inStep) (·.i) = some 0x087#16 := by decide
/-- R201's example. -/
theorem test_ldB : after (.ldB 0x4#4) (withI 0x300#16 [] (withV [(0x4#4, 0xE7#8)] inStep))
    (fun t => (t.memRead 0x300, t.memRead 0x301, t.memRead 0x302, t.i)) =
    some (some 2#8, some 3#8, some 1#8, 0x300#16) := by decide
/-- M8. -/
theorem test_ldB_outOfBounds : after (.ldB 0x4#4) (withI 0xFFD#16 [] (withV [(0x4#4, 0xE7#8)] inStep))
    (fun t => (t.memRead 0xFFD, t.memRead 0xFFE, t.fault)) =
    some (some 2#8, some 3#8, some ⟨.outOfBoundsAccess, 0x200#16, some 0xF433#16, some 0xFFF, none⟩) := by decide
/-- M9. -/
theorem test_storeRegs :
    after (.storeRegs 0x2#4) (withI 0x400#16 [] (withV [(0x0#4, 0x11#8), (0x1#4, 0x22#8), (0x2#4, 0x33#8)] inStep))
      (fun t => (t.memRead 0x400, t.memRead 0x401, t.memRead 0x402, t.i)) =
    some (some 0x11#8, some 0x22#8, some 0x33#8, 0x400#16) := by decide
/-- M12. -/
theorem test_loadRegs : after (.loadRegs 0x2#4) (withI 0x300#16 [0x02#8, 0x03#8, 0x01#8] inStep)
    (fun t => (t.getV 0x0#4, t.getV 0x1#4, t.getV 0x2#4, t.i)) = some (0x02#8, 0x03#8, 0x01#8, 0x300#16) := by decide
/-- R60 and R51 at another instance: glyph B from 0, three bytes each; 0x7FF the last byte of 2048. -/
theorem test_other_instance :
    after (.ldF 0x0#4) (withV [(0x0#4, 0x1B#8)] { inStep with params := otherParams }) (·.i) = some 33#16 ∧
    (State.memRead { inStep with params := otherParams } 0x7FF, State.memRead { inStep with params := otherParams } 0x800) =
      (some 0x00#8, none) := by decide
/-- M14: the first glyph of the font. -/
theorem test_loadRegs_font : after (.loadRegs 0x4#4) (withI 0x050#16 [] inStep)
    (fun t => (t.getV 0x0#4, t.getV 0x1#4, t.getV 0x2#4, t.getV 0x3#4, t.getV 0x4#4)) =
    some (0xF0#8, 0x90#8, 0x90#8, 0x90#8, 0xF0#8) := by decide

/-! ### Steps and the host's operations -/

/-- 6A2B at 0x200, run by the first step after reset. -/
theorem test_step_runs_the_placed_word :
    afterStep (State.reset.withFetchWord 16 0x6A2B) (fun t => (t.getV 0xA#4, t.pc)) = some (0x2B#8, 0x202#16) := by decide
/-- R24, R87: the empty memory at 0x200 holds an illegal word. -/
theorem test_step_illegal : afterStep State.reset (fun t => (t.pc, t.fault)) =
    some (0x202#16, some ⟨.invalidOpcode, 0x200#16, some 0x0000#16, none, none⟩) := by decide
/-- C16's second step. -/
theorem test_step_outOfBounds : afterStep { inStep with pc := 0x10FE#16 } (fun t => (t.pc, t.fault)) =
    some (0x10FE#16, some ⟨.outOfBoundsAccess, 0x10FE#16, none, some 0x10FE, none⟩) := by decide
/-- L1, and the run that follows it: a LOAD, then a STEP of 1200. -/
theorem test_load : afterStep { State.reset with schedule := [.load [0x12#8, 0x00#8, 0x00#8]] }
    (fun t => (t.memRead 0x200, t.memRead 0x201, t.romWarn, t.pc)) =
    some (some 0x12#8, some 0x00#8, false, 0x200#16) := by decide
/-- L2, L3: this hardware's warning starts at 3583 bytes. -/
theorem test_rom_warn (s : State) (b : Byte) (h : s.params = referenceParams) :
    (s.loadRom (List.replicate 3582 b)).romWarn = false ∧ (s.loadRom (List.replicate 3583 b)).romWarn = true := by
  have hw (n : Nat) : (s.loadRom (List.replicate n b)).romWarn = decide (4095 ≤ 0x200 + n) := by
    show decide (_ ≤ _ + (List.replicate n b).length) = _
    rw [List.length_replicate, h]; rfl
  rw [hw, hw]; decide

/-- T2, T5. -/
theorem test_tick :
    afterStep { inStep with dt := 0x05#8, st := 0x01#8, schedule := [.tick] } (fun t => (t.dt, t.st, t.soundEdge)) =
      some (0x04#8, 0x00#8, true) ∧
    afterStep { faulted with dt := 0x02#8, schedule := [.tick] } (·.dt) = some 0x01#8 := by decide
/-- R242: STEP, TICK for ever: the fourth operation is a TICK again. -/
theorem test_step_tick_for_ever :
    (State.runFor 3 { faulted with later := .repeats .step [.tick], dt := 0x05#8 }).map (fun t => (t.nextOp.1, t.dt)) =
      some (.tick, 0x04#8) := by decide
/-- R260: the last of the launch's cells at an address gives its byte, the font stays, RESET reopens the LOAD window. -/
theorem test_reset :
    afterStep { faulted with schedule := [.reset ⟨Vector.replicate 16 0xA5#8, 0xFFF#12, 1#8, 2#8, [(0x300, 1#8), (0x300, 2#8), (0x50, 3#8)]⟩] }
      (fun t => (t.memRead 0x300, t.memRead 0x50, t.romOpen, t.fault)) = some (some 2#8, some 0xF0#8, true, none) := by decide
/-- The numeric codes of RESULT (R220). -/
theorem test_result_codes : faulted.result.num = 2 ∧ inStep.result.num = 0 := by decide

/-! ### Every statement with hypotheses: states and operands that meet them

`test_meets_<Name>` is about the hypotheses of `Obligations.<Name>`, clause by clause, at the boundaries of their ranges. -/

/-- A JP to itself at 0x200 (R97), LOAD over. -/
def idleAt200 : State := { State.reset with mem := [(0x200, 0x12#8)], romOpen := false }

/-- One entry on the stack, two bytes of memory, a finite depth. -/
def busy : State :=
  { inStep with
    mem := [(0x200, 0x12#8), (0xFFE, 0x01#8)], i := 0xFFF#16, stack := [4095#16]
    params := { referenceParams with stackDepth := some 1 } }

theorem test_meets_DecodeOfEncodeIsTheInstruction :
    Instr.wf true (.seReg 0x1#4 0x2#4 0x0#4) = true ∧ Instr.wf false (.sneReg 0x1#4 0x2#4 0xF#4) = true := by decide

theorem test_meets_EncodeOfDecodeIsTheWord :
    decode false 0x9567#16 = .instr (.sneReg 0x5#4 0x6#4 0x7#4) ∧ decode true 0xFFFF#16 ≠ .instr .cls := by decide

theorem test_meets_DecoderFollowsTheOpcodeMap :
    (∃ r ∈ opcodeRows false, r.matchesWord 0x8ABE#16 = true) ∧ (∀ r ∈ opcodeRows true, r.matchesWord 0x5121#16 = false) := by
  decide

theorem test_meets_OpcodeRowsNeverOverlap :
    ∃ r ∈ opcodeRows true, ∃ q ∈ opcodeRows true, r.matchesWord 0x9120#16 = true ∧ q.matchesWord 0x9120#16 = true := by
  decide

theorem test_meets_RegisterSkipsDecodeByStrictness : (0x0#4 : Nibble) = 0x0#4 ∧ (0xF#4 : Nibble) ≠ 0x0#4 := by decide

theorem test_meets_StepRunsTheDecodedInstruction :
    State.stepNext idleAt200 ∧ idleAt200.fault = none ∧ idleAt200.memRead idleAt200.pc.toInt = some 0x12#8 ∧
    idleAt200.memRead (idleAt200.pc.toInt + 1) = some 0x00#8 ∧
    decode idleAt200.params.strict59 (0x12#8 ++ 0x00#8) = .instr (.jp 0x200#12) :=
  ⟨rfl, by decide, by decide, by decide, by decide⟩

/-- A STEP of the schedule, a STEP that repeats, a free host. -/
theorem test_meets_FetchOutOfBoundsIsLatched :
    State.stepNext { inStep with schedule := [.step] } ∧ inStep.fault = none ∧
    ¬ validAddr referenceParams (0xFFF#16 : Word).toInt ∧ ¬ validAddr referenceParams (0xFFFE#16 : Word).toInt ∧
    (validAddr referenceParams (0xFFE#16 : Word).toInt ∧ ¬ validAddr referenceParams ((0xFFE#16 : Word).toInt + 1)) :=
  ⟨rfl, by decide⟩

theorem test_meets_IllegalWordIsLatched :
    State.stepNext State.reset ∧ State.reset.fault = none ∧ State.reset.memRead State.reset.pc.toInt = some 0x00#8 ∧
    State.reset.memRead (State.reset.pc.toInt + 1) = some 0x00#8 ∧
    ∀ r ∈ opcodeRows State.reset.params.strict59, r.matchesWord (0x00#8 ++ 0x00#8) = false :=
  ⟨rfl, by decide, by decide, by decide, by decide⟩

theorem test_meets_FaultedStepChangesNothing :
    State.stepNext faulted ∧ faulted.fault = some ⟨.stackUnderflow, 0x200#16, some 0x00EE#16, none, none⟩ :=
  ⟨rfl, by decide⟩

theorem test_meets_OnlyResetClearsTheLatch :
    (∃ t, step { faulted with schedule := [.tick] } = .next t) ∧ (∃ r, faulted.fault = some r) ∧
    (∀ l : Launch, (State.nextOp { faulted with schedule := [.tick] }).1 ≠ .reset l) :=
  ⟨⟨_, rfl⟩, ⟨_, rfl⟩, fun _ h => (by cases h)⟩

theorem test_meets_OnlyMisplacedLoadIsRefused :
    ((∃ rom, (State.nextOp { inStep with later := .repeats (.load [0x12#8]) [] }).1 = .load rom) ∧ inStep.romOpen = false) ∧
    ¬ ((∃ rom, State.reset.nextOp.1 = .load rom) ∧ State.reset.romOpen = false) :=
  ⟨⟨⟨_, rfl⟩, by decide⟩, fun h => by cases h.2⟩

theorem test_meets_PlacedWordRunsNext :
    paramsWf busy.params ∧ Memory.wf busy.params busy.mem ∧ decode busy.params.strict59 (BitVec.ofNat 16 0x00E0) = .instr .cls := by decide

theorem test_meets_ByteReadAfterByteWrite :
    Memory.wf busy.params busy.mem ∧ validAddr referenceParams 0 ∧ validAddr referenceParams 0xFFE ∧ ¬ validAddr referenceParams 0xFFF ∧ ¬ validAddr referenceParams (-1) := by decide

theorem test_meets_PopAfterPushGivesTheEntry : ∃ t, State.push inStep 0x202#16 = some t := ⟨_, rfl⟩

theorem test_meets_ReturnPopsIntoPc : busy.stack = [] ++ [4095#16] ∧ inStep.stack = [] := by decide

theorem test_meets_CallPushesThenJumps :
    inStep.params.stackDepth ≠ some inStep.stack.length ∧ busy.params.stackDepth = some busy.stack.length ∧
    some 2 ≠ some busy.stack.length := by decide

theorem test_meets_CallThenReturnRestoresPc :
    inStep.params.stackDepth ≠ some inStep.stack.length ∧
    ∃ t u : State, exec (.call 0x300#12) inStep = .next t ∧ u.stack = t.stack ∧ u.pc ≠ t.pc :=
  ⟨by decide, { inStep with pc := 0x300#16, stack := [0x202#16] }, { inStep with pc := 0x456#16, stack := [0x202#16] },
    rfl, by decide, by decide⟩

theorem test_meets_ImmediateSkips : inStep.getV 0x5#4 = 0x00#8 ∧ inStep.getV 0x5#4 ≠ 0x01#8 := by decide

theorem test_meets_RegisterSkips :
    inStep.getV 0x5#4 = inStep.getV 0x6#4 ∧
    (withV [(0x5#4, 0x01#8)] inStep).getV 0x5#4 ≠ (withV [(0x5#4, 0x01#8)] inStep).getV 0x6#4 := by decide

/-- The one hypothesis of the three statements on flag-writing operations. -/
theorem test_meets_AddRegistersWithCarry : (0xE#4 : Nibble) ≠ 0xF#4 := by decide

theorem test_meets_SubtractRegistersWithNoBorrow : (0x0#4 : Nibble) ≠ 0xF#4 := by decide

theorem test_meets_ShiftsUseVxAlone : (0xE#4 : Nibble) ≠ 0xF#4 := by decide

theorem test_meets_RandomByteIsMasked :
    ({ inStep with rnd := [0xA7#8, 0x01#8] } : State).rnd = 0xA7#8 :: [0x01#8] ∧ inStep.rnd = [] := by decide

/-- At I = 0xFFE one row is in bounds; the sprite's bit meets a set pixel, and its 0 bits meet none. -/
theorem test_meets_SpriteIsXoredOntoTheScreen :
    Framebuffer.wf referenceParams inStep.fb ∧ (∀ j < 1, validAddr referenceParams (State.indexed { inStep with i := 0xFFE#16 } j)) ∧
    (∃ px py : Nat, px < 64 ∧ py < 32 ∧
      State.readPixel { inStep with fb := inStep.fb.setPixel 5 0 true } px py = true ∧
      spriteBit (withI 0x300#16 [0x04#8] inStep) 0 0 1 px py = true) ∧
    (∀ px py : Nat, px < 64 → py < 32 → inStep.readPixel px py = true → False) := by
  refine ⟨by decide, by decide, ⟨5, 0, by decide, by decide, by decide, by decide⟩, fun px py _ _ h => ?_⟩
  have hp : inStep.readPixel px py = false := pixel_clear px py
  rw [hp] at h; cases h

/-- D6: at I = 0xFFE the second row is the first one out of bounds; at I = 0xFFF the first. -/
theorem test_meets_SpriteOutOfBoundsIsLatched :
    (1 < (0x2#4 : Nibble).toNat ∧ FirstOutOfBounds { inStep with i := 0xFFE#16 } 1) ∧
    (0 < (0x1#4 : Nibble).toNat ∧ FirstOutOfBounds { inStep with i := 0xFFF#16 } 0) := by
  unfold FirstOutOfBounds; decide

theorem test_meets_DrawingTwiceRestoresTheScreen :
    Framebuffer.wf referenceParams (withI 0x300#16 [0xF0#8] inStep).fb ∧
    (0x0#4 : Nibble) ≠ 0xF#4 ∧ (0x1#4 : Nibble) ≠ 0xF#4 ∧
    (∀ j < (0x1#4 : Nibble).toNat, validAddr referenceParams (State.indexed (withI 0x300#16 [0xF0#8] inStep) j)) ∧
    ∃ t u, exec (.drw 0x0#4 0x1#4 0x1#4) (withI 0x300#16 [0xF0#8] inStep) = .next t ∧
      exec (.drw 0x0#4 0x1#4 0x1#4) t = .next u :=
  ⟨by decide, by decide, by decide, by decide, _, _, rfl, rfl⟩

theorem test_meets_KeySkips :
    (0xA#4 : Nibble).toNat = ((withV [(0x5#4, 0x1A#8)] inStep).getV 0x5#4).toNat % 16 ∧
    (withKey 0xA#4 inStep).keyPressed 0xA#4 = true ∧ inStep.keyPressed 0xA#4 = false := by decide

theorem test_meets_KeyWaitStoresAPressedKey :
    (∀ k : Nibble, inStep.keyPressed k = false) ∧ (∃ k : Nibble, (withKey 0xF#4 inStep).keyPressed k = true) := by decide

/-- The bound itself: a last glyph at 0xFFF. -/
theorem test_meets_FontAddressOfLowNibble :
    inStep.params.fontBase + 15 * inStep.params.glyphSize ≤ 0xFFF ∧ 0xFB4 + 15 * 5 = 0xFFF := by decide

/-- 0xFFC to 0xFFE are in bounds; from 0xFFD the third byte is out, from 0xFFE the second, at 0xFFF the first. -/
theorem test_meets_DecimalDigitsAreStored :
    Memory.wf inStep.params inStep.mem ∧ (∀ k < 3, validAddr referenceParams (State.indexed { inStep with i := 0xFFC#16 } k)) ∧
    FirstOutOfBounds { inStep with i := 0xFFD#16 } 2 ∧ FirstOutOfBounds { inStep with i := 0xFFE#16 } 1 ∧
    FirstOutOfBounds { inStep with i := 0xFFF#16 } 0 := by
  unfold FirstOutOfBounds; decide

/-- M11: x = F from 0xFEF is in bounds, from 0xFF0 the last byte is out. -/
theorem test_meets_RegistersAreStored :
    Memory.wf inStep.params inStep.mem ∧
    (∀ k < (0xF#4 : Nibble).toNat + 1, validAddr referenceParams (State.indexed { inStep with i := 0xFEF#16 } k)) ∧
    15 < (0xF#4 : Nibble).toNat + 1 ∧ FirstOutOfBounds { inStep with i := 0xFF0#16 } 15 := by
  unfold FirstOutOfBounds; decide

theorem test_meets_RegistersAreLoaded :
    (∀ k < (0x0#4 : Nibble).toNat + 1, validAddr referenceParams (State.indexed { inStep with i := 0xFFE#16 } k)) ∧
    0 < (0x0#4 : Nibble).toNat + 1 ∧ FirstOutOfBounds { inStep with i := 0xFFF#16 } 0 := by
  unfold FirstOutOfBounds; decide

/-- FX55 with x = 0 at the last byte, fetched as a low byte; FX33 at the last three, its second digit fetched as a high byte. -/
theorem test_meets_StoredWordIsFetchedNext :
    Memory.wf inStep.params inStep.mem ∧
    (∃ t u : State, ∃ op, exec (.storeRegs 0x0#4) { inStep with i := 0xFFE#16 } = .next t ∧ u = t.setPc 0xFFD#16 ∧
      u.fetch = .word op ∧ u.pc.toInt + 1 = State.indexed { inStep with i := 0xFFE#16 } 0) ∧
    (∀ j < (0x0#4 : Nibble).toNat + 1, validAddr referenceParams (State.indexed { inStep with i := 0xFFE#16 } j)) ∧
    (∃ t u : State, ∃ op, exec (.ldB 0x0#4) { inStep with i := 0xFFC#16 } = .next t ∧ u = t.setPc 0xFFD#16 ∧
      u.fetch = .word op ∧ u.pc.toInt = State.indexed { inStep with i := 0xFFC#16 } 1) ∧
    (∀ j < 3, validAddr referenceParams (State.indexed { inStep with i := 0xFFC#16 } j)) :=
  ⟨by decide, ⟨_, _, _, rfl, rfl, rfl, by decide⟩, by decide, ⟨_, _, _, rfl, rfl, rfl, by decide⟩, by decide⟩

theorem test_meets_OnlyThreeInstructionsWriteI :
    (∃ t, exec (.ldB 0x4#4) inStep = .next t) ∧ (∀ nnn, Instr.ldB 0x4#4 ≠ .ldI nnn) ∧
    (∀ x, Instr.ldB 0x4#4 ≠ .addI x) ∧ (∀ x, Instr.ldB 0x4#4 ≠ .ldF x) :=
  ⟨⟨_, rfl⟩, fun _ h => (by cases h), fun _ h => (by cases h), fun _ h => (by cases h)⟩

theorem test_meets_OnlyCallReturnTouchTheStackOnlyClearDrawTheScreen :
    (∃ t, exec (.jp 0x300#12) busy = .next t) ∧ (∀ nnn, Instr.jp 0x300#12 ≠ .call nnn) ∧ Instr.jp 0x300#12 ≠ .ret ∧
    Instr.jp 0x300#12 ≠ .cls ∧ (∀ x y n, Instr.jp 0x300#12 ≠ .drw x y n) :=
  ⟨⟨_, rfl⟩, fun _ h => (by cases h), fun h => (by cases h), fun h => (by cases h), fun _ _ _ h => (by cases h)⟩

theorem test_meets_OnlyBcdAndBlockStoreWriteMemory :
    (∃ t, exec (.loadRegs 0xF#4) busy = .next t) ∧ (∀ x, Instr.loadRegs 0xF#4 ≠ .ldB x) ∧
    (∀ x, Instr.loadRegs 0xF#4 ≠ .storeRegs x) :=
  ⟨⟨_, rfl⟩, fun _ h => (by cases h), fun _ h => (by cases h)⟩

theorem test_meets_InstructionsLeaveTimersAndHostAlone :
    (∃ t, exec (.ldSTVx 0x1#4) busy = .next t) ∧ (∀ x, Instr.ldSTVx 0x1#4 ≠ .ldDTVx x) ∧
    (∃ t, exec (.ldDTVx 0x1#4) busy = .next t) ∧ (∀ x, Instr.ldDTVx 0x1#4 ≠ .ldSTVx x) :=
  ⟨⟨_, rfl⟩, fun _ h => (by cases h), ⟨_, rfl⟩, fun _ h => (by cases h)⟩

/-- One instruction for each error: 00EE, 2NNN, FX65. -/
theorem test_meets_InstructionsRaiseTheirErrorsAlone :
    inStep.fault = none ∧ busy.fault = none ∧ (∃ t r, exec .ret inStep = .next t ∧ t.fault = some r) ∧
    (∃ t r, exec (.call 0x300#12) busy = .next t ∧ t.fault = some r) ∧
    (∃ t r, exec (.loadRegs 0x0#4) busy = .next t ∧ t.fault = some r) :=
  ⟨by decide, by decide, ⟨_, _, rfl, rfl⟩, ⟨_, _, rfl, rfl⟩, ⟨_, _, rfl, rfl⟩⟩

/-- A state that is not the reset state, at the bounds of I, the stack entries and the depth. -/
theorem test_meets_StepKeepsTheInvariant : busy.Inv ∧ ∃ t, step busy = .next t := by
  have hpc : 0 ≤ busy.pc.toInt ∧ busy.pc.toInt ≤ 0x10FE := by
    show 0 ≤ (0x202#16 : Word).toInt ∧ (0x202#16 : Word).toInt ≤ 0x10FE
    decide
  refine ⟨⟨by decide, by decide, by decide, by decide, ⟨hpc.1, .inl hpc.2⟩, fun a ha => (by simp [busy] at ha; subst ha; decide), fun d h => ?_, fun r h => (by cases h)⟩, ?_⟩
  · cases h; decide
  · rw [step_of_stepNext (s := busy) rfl]; exact stepOp_next _

theorem test_meets_IdleStateStays :
    idleAt200.idle ∧ idleAt200.schedule = [] ∧ idleAt200.later = .repeats .step [] ∧ idleAt200.romOpen = false :=
  ⟨⟨by decide, 0x200#12, by decide, by decide⟩, by decide, by decide, by decide⟩

/-- A TICK of the schedule, and one that repeats. -/
theorem test_meets_TickCountsBothTimersDown :
    (State.nextOp { faulted with schedule := [.tick, .step] }).1 = .tick ∧
    (State.nextOp { faulted with later := .repeats .tick [.step] }).1 = .tick := by decide

theorem test_meets_KeyChangeTouchesOnlyTheKeyboard :
    (State.nextOp { inStep with schedule := [.setKeys (Vector.replicate 16 true)] }).1 =
      .setKeys (Vector.replicate 16 true) := by decide

/-- An image of three bytes; and addresses on both sides of it. -/
theorem test_meets_LoadWritesTheImage :
    Memory.wf State.reset.params State.reset.mem ∧ State.reset.romOpen = true ∧
    (State.nextOp { State.reset with schedule := [.load [0x12#8, 0x00#8, 0x00#8]] }).1 = .load [0x12#8, 0x00#8, 0x00#8] ∧
    2 < [0x12#8, 0x00#8, 0x00#8].length ∧ State.reset.params.programOffset + 2 < State.reset.params.memCapacity ∧
    (0x1FF : Int) < State.reset.params.programOffset ∧
    ((State.reset.params.programOffset : Int) + [0x12#8, 0x00#8, 0x00#8].length ≤ 0x203) := by decide

/-- Launch values that are not the reset state's, two of them at one address. -/
def launch : Launch :=
  { v := Vector.replicate 16 0xA5#8, i := 0xFFF#12, dt := 0x01#8, st := 0xFF#8,
    mem := [(0xFFE, 0x11#8), (0xFFE, 0x77#8), (0x4F, 0x01#8)] }

theorem test_meets_ResetGivesTheInitialState :
    paramsWf faulted.params ∧ (State.nextOp { faulted with schedule := [.reset launch] }).1 = .reset launch ∧
    launch.mem = [(0xFFE, 0x11#8)] ++ (0xFFE, 0x77#8) :: [(0x4F, 0x01#8)] ∧
    (∀ c ∈ [((0x4F, 0x01#8) : Host.Cell)], c.1 ≠ 0xFFE) ∧ 0xFFE < faulted.params.memCapacity ∧
    faulted.params.fontBase + faulted.params.fontTable.length ≤ 0xFFE ∧
    launch.mem = [(0xFFE, 0x11#8), (0xFFE, 0x77#8)] ++ (0x4F, 0x01#8) :: [] ∧ 0x4F < faulted.params.fontBase := by decide

/-- One state for each of the three cases of the host's order. -/
theorem test_meets_OperationsComeInTheHostsOrder :
    (∃ t, step { faulted with schedule := [.tick] } = .next t) ∧
    (∃ t, step { faulted with later := .repeats .tick [.step] } = .next t) ∧ faulted.schedule = [] ∧
    ∃ t, step { faulted with later := .free 7 } = .next t := by
  refine ⟨⟨_, rfl⟩, ⟨_, rfl⟩, rfl, ?_⟩
  unfold step
  rw [nextOp_free (n := 7) rfl rfl]
  cases Config.hostOp 7
  · exact ⟨_, rfl⟩
  · exact ⟨_, rfl⟩
  · exact ⟨_, rfl⟩

theorem test_meets_RunsGoOnForEver :
    faulted.schedule = [] ∧ (∀ rom, HostOp.load rom ∉ HostOp.step :: [.tick]) ∧
    ({ faulted with later := .free 7 } : State).later = .free 7 := by
  refine ⟨rfl, fun rom h => ?_, rfl⟩
  simp at h

end Sys2Proof.Tests
end

/-! PROOFS. The invariant of the machine (`State.Inv`) is kept by every operation of the host. Each write to the state has
one lemma saying what it asks for to keep the invariant; the instructions follow along `Effect`, the STEP along
`stepOp_cases`, and a step performs one operation of the host. -/

namespace Sys2Proof.Machine

variable {s : State}

/-! ### Words as natural numbers -/

/-- A 12-bit address is in the range of I (R23, R82). -/
theorem zext16_toNat_le (a : Addr12) : (zext16 a).toNat ≤ 0xFFF := by
  rw [zext16, BitVec.toNat_setWidth_of_le (by decide)]
  omega

/-- In an instance no address a step can leave in PC is negative as a signed word (R24, R27), so PC's range is a bound on its
unsigned value. -/
theorem pcRange_iff_toNat_le {p : Params} (hp : paramsWf p) (a : Word) :
    (0 ≤ a.toInt ∧ (a.toInt ≤ 0x10FE ∨ a.toInt ≤ p.memCapacity + 2)) ↔
      a.toNat ≤ 0x10FE ∨ a.toNat ≤ p.memCapacity + 2 := by
  obtain ⟨-, -, -, -, -, -, hcap⟩ := hp
  rw [BitVec.toInt_eq_toNat_cond]
  split <;> omega

theorem toInt_eq_toNat_of_nonneg {a : Word} (h : 0 ≤ a.toInt) : a.toInt = a.toNat := by
  rw [BitVec.toInt_eq_toNat_cond] at h ⊢
  split at h <;> omega

/-! ### What each write to the state asks for -/

namespace State.Inv

theorem pc_toNat_le (h : s.Inv) : s.pc.toNat ≤ 0x10FE ∨ s.pc.toNat ≤ s.params.memCapacity + 2 :=
  (pcRange_iff_toNat_le h.instanceWf s.pc).1 h.pcRange

theorem setPc (h : s.Inv) {a : Word} (ha : a.toNat ≤ 0x10FE ∨ a.toNat ≤ s.params.memCapacity + 2) : (s.setPc a).Inv :=
  { h with pcRange := (pcRange_iff_toNat_le h.instanceWf a).2 ha }

theorem setI (h : s.Inv) {a : Word} (ha : a.toNat ≤ 0xFFF) : (s.setI a).Inv :=
  { h with index := ha }

theorem setFb (h : s.Inv) {fb : Framebuffer} (hf : Framebuffer.wf s.params fb) : (s.setFb fb).Inv :=
  { h with screen := hf }

theorem setMem (h : s.Inv) {m : Memory} (hm : Memory.wf s.params m) : (s.setMem m).Inv :=
  { h with memory := hm }

theorem raise (h : s.Inv) {r : FaultRecord} (hr : r.wf s.params) : (s.raise r).Inv :=
  { h with record := fun _ hq => Option.some.inj hq ▸ hr }

/-- An instruction that accesses memory may latch an access out of bounds (R221, R222). -/
theorem raiseOutOfBounds (h : s.Inv) {i : Instr} (hi : accessesMemory i = true) {a : Int} (ha : ¬ validAddr s.params a) :
    (s.raiseIn (encode i) .outOfBoundsAccess (some a) none).Inv :=
  h.raise ⟨⟨a, rfl, ha, .inr ⟨i, hi, rfl⟩⟩, rfl⟩

/-- A call stack may lose entries from its end. -/
theorem dropLastEntry (h : s.Inv) {st : List Word} {a : Word} (hst : s.stack = st ++ [a]) :
    State.Inv { s with stack := st } :=
  { h with
    entries := fun b hb => h.entries b (hst ▸ List.mem_append_left _ hb)
    depth := fun d hd => by
      have hle := h.depth d hd
      rw [hst, List.length_append] at hle
      exact Nat.le_of_add_right_le hle }

/-- A call stack with room takes an address at most `MEM_CAPACITY` (R62). -/
theorem appendEntry (h : s.Inv) {a : Word} (ha : a.toNat ≤ s.params.memCapacity)
    (hroom : s.params.stackDepth ≠ some s.stack.length) : State.Inv { s with stack := s.stack ++ [a] } :=
  { h with
    entries := fun b hb => by
      rcases List.mem_append.1 hb with hb | hb
      · exact h.entries b hb
      · exact List.mem_singleton.1 hb ▸ ha
    depth := fun d hd => by
      have hlt : s.stack.length < d :=
        Nat.lt_of_le_of_ne (h.depth d hd) fun heq => hroom (heq ▸ hd)
      rw [List.length_append]
      exact hlt }

theorem closeRom (h : s.Inv) : s.closeRom.Inv := { h with }

/-- Taking an operation off the host's order changes nothing the invariant reads (log 6). -/
theorem issued (h : s.Inv) : s.issued.Inv := by
  unfold State.issued
  rw [nextOp_frame]
  exact { h with }

end State.Inv

/-! ### Instructions -/

theorem accessesMemory_of_storesBytes {i : Instr} (hi : storesBytes i) : accessesMemory i = true := by
  cases i with
  | ldB | storeRegs => rfl
  | _ => exact hi.elim

/-- An instruction run with PC at P + 2, its word read at P and P + 1 (R95), keeps the invariant. A skip may leave PC two
above the memory, a key wait puts it back to P, and a call pushes at most `MEM_CAPACITY`. -/
theorem Effect.keeps_inv {i : Instr} {t : State} (h : Effect s i t) (hs : s.Inv) (hlo : 2 ≤ s.pc.toNat)
    (hhi : s.pc.toNat ≤ s.params.memCapacity) : t.Inv := by
  cases h with
  | clear => exact hs.setFb clear_wf
  | popped st a hst =>
    have ha : a.toNat ≤ s.params.memCapacity := hs.entries a (by simp [hst])
    exact (hs.dropLastEntry hst).setPc (.inr (Nat.le_add_right_of_le ha))
  | underflow => exact hs.raise ⟨rfl, rfl, rfl⟩
  | pushed nnn hroom => exact (hs.appendEntry hhi hroom).setPc (.inl (Nat.le_trans (zext16_toNat_le nnn) (by decide)))
  | overflow nnn hfull => exact hs.raise ⟨⟨nnn, rfl⟩, rfl, hfull.symm, by simp [hfull]⟩
  | jumped _ p _ hp =>
    refine hs.setPc ?_
    rcases hp with hp | rfl | rfl | rfl
    · exact .inl hp
    · exact hs.pc_toNat_le
    · exact .inr (by bv_omega)
    · exact .inr (by bv_omega)
  | registers | delay | sound => exact { hs with }
  | index _ a _ ha => exact hs.setI (ha hs.instanceWf)
  | drawn x y n fb v hw => exact { hs with screen := hw hs.screen }
  | drawnInPart x y n fb e hw he => exact (hs.setFb (hw hs.screen)).raiseOutOfBounds rfl he
  | stored _ m _ hm => exact hs.setMem (hm hs.memory)
  | storedInPart _ m e hi hm he =>
    exact (hs.setMem (hm hs.memory)).raiseOutOfBounds (accessesMemory_of_storesBytes hi) he
  | loadedInPart x v e he =>
    exact State.Inv.raiseOutOfBounds (s := { s with v := v }) { hs with } rfl he

/-! ### The host's operations -/

/-- A fetched word lies in memory, so P + 2 is at most `MEM_CAPACITY` and does not wrap. -/
theorem advance_pc_bounds (h : s.Inv) {op : Word} (hf : s.fetch = .word op) :
    2 ≤ s.advance.pc.toNat ∧ s.advance.pc.toNat ≤ s.params.memCapacity := by
  obtain ⟨-, -, -, -, -, -, hcap⟩ := h.instanceWf
  rcases fetch_cases s with ⟨⟨hpos, -⟩, ⟨-, hlt⟩, -⟩ | ⟨-, hout⟩ | ⟨-, -, hout⟩
  · rw [toInt_eq_toNat_of_nonneg hpos] at hlt
    simp only [State.advance, setPc_pc]
    bv_omega
  · rw [hf] at hout; cases hout
  · rw [hf] at hout; cases hout

/-- The address a fetch reports is PC or the one above it, and no byte exists there (R95, R225). -/
theorem fetch_outOfBounds {addr : Int} (hf : s.fetch = .outOfBounds addr) :
    ¬ validAddr s.params addr ∧ (addr = s.pc.toInt ∨ addr = s.pc.toInt + 1) := by
  rcases fetch_cases s with ⟨-, -, h⟩ | ⟨hv, h⟩ | ⟨-, hv, h⟩ <;> rw [hf] at h <;> cases h
  · exact ⟨hv, .inl rfl⟩
  · exact ⟨hv, .inr rfl⟩

/-- STEP keeps the invariant (R95). -/
theorem stepOp_keeps_inv {t : State} (hs : s.Inv) (h : stepOp s = .next t) : t.Inv := by
  rcases stepOp_cases s with ⟨_, _, he⟩ | ⟨addr, _, hf, he⟩ | ⟨op, _, hf, hd, he⟩ | ⟨op, i, _, hf, _, he⟩ <;> rw [he] at h
  · cases h; exact hs
  · cases h
    obtain ⟨hv, ha⟩ := fetch_outOfBounds hf
    exact hs.closeRom.raise ⟨⟨addr, rfl, hv, .inl ⟨rfl, ha⟩⟩, rfl⟩
  · cases h
    have hadv := hs.closeRom.setPc (.inr (Nat.le_add_right_of_le (advance_pc_bounds hs hf).2))
    exact hadv.raise ⟨⟨op, rfl, hd⟩, rfl, rfl⟩
  · obtain ⟨hlo, hhi⟩ := advance_pc_bounds hs hf
    exact (exec_effect h).keeps_inv (hs.closeRom.setPc (.inr (Nat.le_add_right_of_le hhi))) hlo hhi

/-- RESET gives a state that meets the invariant, whatever the launch values (R260). -/
theorem resetTo_inv (hp : paramsWf s.params) (l : Launch) : (s.resetTo l).Inv where
  instanceWf := hp
  memory := setRun_wf (ofCells_wf nil_wf l.mem) _ _
  screen := clear_wf
  index := zext16_toNat_le l.i
  pcRange := (pcRange_iff_toNat_le hp _).2 (.inr (by
    obtain ⟨-, -, -, -, -, hprog, -⟩ := hp
    have hmod : s.params.programOffset % 2 ^ 16 ≤ s.params.programOffset := Nat.mod_le _ _
    simp only [State.resetTo, BitVec.toNat_ofNat]
    omega))
  entries := fun _ ha => by cases ha
  depth := fun _ _ => Nat.zero_le _
  record := fun _ hr => by cases hr

/-- Every operation of the host keeps the invariant (R39). -/
theorem perform_keeps_inv {op : HostOp} {t : State} (hs : s.Inv) (h : perform op s = .next t) : t.Inv := by
  cases op with
  | step => exact stepOp_keeps_inv hs h
  | load rom =>
    simp only [perform] at h
    split at h <;> cases h
    exact { hs with memory := setRun_wf hs.memory _ rom }
  | tick | setKeys => cases h; exact { hs with }
  | reset l => cases h; exact resetTo_inv hs.instanceWf l

/-- Settles O51: a step performs one operation of the host, and each of them keeps the invariant. -/
theorem stepKeepsTheInvariant : Obligations.StepKeepsTheInvariant := by
  unfold Obligations.StepKeepsTheInvariant
  intro s t hs h
  rw [step_eq_perform] at h
  exact perform_keeps_inv hs.issued h

end Sys2Proof.Machine

/-! PROOFS. Memory as MemRead and MemWrite see it: a read after a write, the byte a run of stores leaves at I + k and what a
fetch makes of it, and the host's order, which no operation changes (20_memory.md R51, R52, R54, R65, R68). -/

namespace Sys2Proof.Machine

variable {s : State}

/-! ### A byte read after a byte written -/

/-- MemRead fails exactly out of bounds (R51). -/
theorem memRead_eq_none_iff {a : Int} : s.memRead a = none ↔ ¬ validAddr s.params a := by
  refine ⟨fun hn hv => ?_, memRead_invalid⟩
  rw [memRead_valid hv] at hn
  cases hn

/-- MemRead in a state whose memory was replaced reads the new memory, within the same bounds. -/
theorem memRead_setMem_valid {a : Int} (h : validAddr s.params a) (m : Memory) :
    (s.setMem m).memRead a = some (Memory.get s.params m a.toNat) :=
  memRead_valid (s := s.setMem m) h

theorem memRead_setMem_invalid {a : Int} (h : ¬ validAddr s.params a) (m : Memory) : (s.setMem m).memRead a = none :=
  memRead_invalid (s := s.setMem m) h

/-- A read after a write in bounds (R51, R52): the byte written at its address, what was read before at every other integer,
in bounds or not. -/
theorem memRead_setMem_set (hm : Memory.wf s.params s.mem) {a : Int} (ha : validAddr s.params a) (b : Byte) (c : Int) :
    (s.setMem (Memory.set s.params s.mem a.toNat b)).memRead c = if c = a then some b else s.memRead c := by
  by_cases hc : validAddr s.params c
  · have hiff : c.toNat = a.toNat ↔ c = a := by omega
    simp only [memRead_setMem_valid hc, memRead_valid hc, get_set s.mem hm.1, hiff, apply_ite some]
  · have hne : c ≠ a := fun heq => hc (heq ▸ ha)
    rw [if_neg hne, memRead_setMem_invalid hc, memRead_invalid hc]

/-- Settles O14: in bounds MemWrite is a write to the list of bytes, and `memRead_setMem_set` says what is read after it. -/
theorem byteReadAfterByteWrite : Obligations.ByteReadAfterByteWrite := by
  unfold Obligations.ByteReadAfterByteWrite
  intro s a b hm
  refine ⟨fun ha => ⟨_, memWrite_valid ha b, ?_, fun c hc => ?_, ?_, rfl⟩, fun ha => memWrite_invalid ha b, memRead_eq_none_iff⟩
  · rw [memRead_setMem_set hm ha, if_pos rfl]
  · rw [memRead_setMem_set hm ha, if_neg hc]
  · exact set_wf hm (by omega) b

/-! ### A stored byte fetched -/

/-- A run of stores at I, …, I + n - 1, all in bounds, leaves byte k at I + k. -/
theorem memRead_settle_storeAt (op : Word) (g : State → Nat → Byte) (hg : ∀ t m j, g (t.setMem m) j = g t j) {n k : Nat}
    (hm : Memory.wf s.params s.mem) (hv : ∀ j < n, validAddr s.params (s.indexed j)) (hk : k < n) :
    (settle op (accessUp (fun j t => t.storeAt j (g t j)) 0 n s)).memRead (s.indexed k) = some (g s k) := by
  obtain ⟨m, hrun, -, hget⟩ := accessUp_storeAt g hg n 0 s hm fun j _ hj => hv j (by omega)
  have hin : s.i.toNat + 0 ≤ s.i.toNat + k ∧ s.i.toNat + k < s.i.toNat + (0 + n) := by omega
  rw [hrun, settle, memRead_setMem_valid (hv k hk), indexed_toNat, hget, if_pos hin, Nat.add_sub_cancel_left]

/-- FX33 leaves digit k of Vx at I + k (R201). -/
theorem memRead_of_exec_ldB {x : Nibble} {t : State} (h : exec (.ldB x) s = .next t) (hm : Memory.wf s.params s.mem)
    (hv : ∀ j < 3, validAddr s.params (s.indexed j)) {k : Nat} (hk : k < 3) :
    t.memRead (s.indexed k) = some (bcdDigit (s.getV x) k) := by
  cases h
  exact memRead_settle_storeAt _ (fun _ j => bcdDigit (s.getV x) j) (fun _ _ _ => rfl) hm hv hk

/-- FX55 leaves Vk at I + k, for k up to x (R202). -/
theorem memRead_of_exec_storeRegs {x : Nibble} {t : State} (h : exec (.storeRegs x) s = .next t)
    (hm : Memory.wf s.params s.mem) (hv : ∀ j < x.toNat + 1, validAddr s.params (s.indexed j)) {k : Nat} (hk : k ≤ x.toNat) :
    t.memRead (s.indexed k) = some (s.getV (BitVec.ofNat 4 k)) := by
  cases h
  exact memRead_settle_storeAt _ (fun t j => t.getV (BitVec.ofNat 4 j)) (fun _ _ _ => rfl) hm hv (Nat.lt_succ_of_le hk)

/-- A byte of memory is the high byte of a word fetched from its address and the low byte of one fetched from the address
below (R55). -/
theorem fetch_bytes_of_memRead {op : Word} (hf : s.fetch = .word op) {a : Int} {b : Byte} (ha : s.memRead a = some b) :
    (s.pc.toInt = a → highByte op = b) ∧ (s.pc.toInt + 1 = a → lowByte op = b) := by
  obtain ⟨hhigh, hlow⟩ := memRead_of_fetch hf
  refine ⟨fun heq => ?_, fun heq => ?_⟩ <;> subst heq
  · exact Option.some.inj (hhigh.symm.trans ha)
  · exact Option.some.inj (hlow.symm.trans ha)

/-- Settles O45: the store leaves its byte at I + k, and a fetch reads the bytes of memory. -/
theorem storedWordIsFetchedNext : Obligations.StoredWordIsFetchedNext := by
  unfold Obligations.StoredWordIsFetchedNext
  intro x k s t u op hm hkept hf
  refine ⟨fun hk hv h => ?_, fun hk hv h => ?_⟩
  · exact fetch_bytes_of_memRead hf (hkept.trans (memRead_of_exec_ldB h hm hv hk))
  · exact fetch_bytes_of_memRead hf (hkept.trans (memRead_of_exec_storeRegs h hm hv hk))

/-! ### The host's order -/

/-- A step leaves of the host's order what issuing its first operation leaves of it (R65). -/
theorem step_order {t : State} (h : step s = .next t) : t.schedule = s.issued.schedule ∧ t.later = s.issued.later := by
  rw [step_eq_perform] at h
  exact perform_order h

/-- Settles O58: no operation changes the order (`step_order`), so each clause is what `State.nextOp` takes from that shape of
it. -/
theorem operationsComeInTheHostsOrder : Obligations.OperationsComeInTheHostsOrder := by
  unfold Obligations.OperationsComeInTheHostsOrder
  intro s t h
  obtain ⟨hsched, hlater⟩ := step_order h
  refine ⟨hsched, hlater, fun op ops hs => ?_, fun op ops hs hl => ?_, fun n hs hl => ?_⟩
  · rw [hsched, hlater, State.issued, nextOp_scheduled hs]
    exact ⟨rfl, rfl, rfl⟩
  · rw [hsched, hlater, State.issued, nextOp_repeats hs hl]
    exact ⟨rfl, rfl, rfl⟩
  · rw [hsched, hlater, State.issued, nextOp_free hs hl]
    exact ⟨rfl, hs, rfl⟩

end Sys2Proof.Machine

/-! PROOFS. Jumps and conditional skips (40_control_flow.md R100, R102, R104, R105, R108). A write to PC and a skip each leave
everything but PC alone, said once; an instruction's proof adds only the value of PC. -/

namespace Sys2Proof.Machine

variable {s : State}

/-! ### What a write to PC and a skip do -/

/-- `PC <- target` is a write to PC alone. -/
theorem onlyPc_setPc (a : Word) : OnlyPc s (s.setPc a) := ⟨rfl, fun _ => rfl⟩

/-- A conditional skip whose Boolean decides P adds 2 to PC exactly when P holds, and touches nothing but PC (R100). -/
theorem skipIf_spec {p : Bool} {P : Prop} (hp : p = true ↔ P) :
    (P → (s.skipIf p).pc = s.pc + 2#16) ∧ (¬ P → (s.skipIf p).pc = s.pc) ∧ OnlyPc s (s.skipIf p) := by
  rw [← hp, skipIf_pc]
  cases p
  · exact ⟨fun h => absurd h Bool.false_ne_true, fun _ => rfl, ⟨rfl, fun _ => rfl⟩⟩
  · exact ⟨fun _ => rfl, fun h => absurd rfl h, onlyPc_setPc _⟩

/-- Zero extension keeps the value of a 12-bit address. -/
theorem zext16_toNat (a : Addr12) : (zext16 a).toNat = a.toNat :=
  BitVec.toNat_setWidth_of_le (by decide)

/-- The sum of a byte and a 12-bit address fits in PC's 16 bits, so BNNN never wraps (R108). -/
theorem toNat_ofNat_byte_add_addr (b : Byte) (a : Addr12) :
    (BitVec.ofNat 16 (b.toNat + a.toNat)).toNat = b.toNat + a.toNat := by
  rw [BitVec.toNat_ofNat, Nat.mod_eq_of_lt (by omega)]

/-! ### The instructions -/

/-- Settles O17: `PC <- NNN`, a 12-bit address zero-extended. -/
theorem jumpSetsPc : Obligations.JumpSetsPc := by
  unfold Obligations.JumpSetsPc
  intro nnn s
  exact ⟨s.setPc (zext16 nnn), rfl, zext16_toNat nnn, onlyPc_setPc _⟩

/-- Settles O20: the sum is at most 0x10FE, below the width of PC. -/
theorem indexedJumpAddsV0 : Obligations.IndexedJumpAddsV0 := by
  unfold Obligations.IndexedJumpAddsV0
  intro nnn s
  exact ⟨s.setPc _, rfl, toNat_ofNat_byte_add_addr (s.getV 0x0#4) nnn, onlyPc_setPc _⟩

/-- Settles O21: both instructions are skips, on `Vx = NN` and on `Vx ≠ NN`. -/
theorem immediateSkips : Obligations.ImmediateSkips := by
  unfold Obligations.ImmediateSkips
  intro x nn s
  refine ⟨⟨s.skipIf (s.getV x == nn), rfl, skipIf_spec beq_iff_eq⟩, ⟨s.skipIf (s.getV x != nn), rfl, ?_⟩⟩
  obtain ⟨htaken, hnot, honly⟩ := skipIf_spec (s := s) (bne_iff_ne (a := s.getV x) (b := nn))
  exact ⟨htaken, fun heq => hnot (not_not_intro heq), honly⟩

end Sys2Proof.Machine

/-! PROOFS. Immediate loads and sums (41_register_immediate.md R120, R121). A write to Vx leaves everything but Vx alone, said
once; an instruction's proof adds only the value of Vx. -/

namespace Sys2Proof.Machine

variable {s : State}

/-- `V[x] <- b` is a write to Vx alone: VF is a register like any other. -/
theorem onlyRegisters_setV (x : Nibble) (b : Byte) : OnlyRegisters [x] s (s.setV x b) := by
  refine ⟨fun r hr => ?_, setV_eq s x b, setV_memRead s x b⟩
  have hne : x ≠ r := fun heq => hr (List.mem_singleton.2 heq.symm)
  exact getV_setV_of_ne s x r b hne

/-- Settles O23: the instruction is one write of NN to Vx. -/
theorem loadImmediate : Obligations.LoadImmediate := by
  unfold Obligations.LoadImmediate
  intro x nn s
  exact ⟨s.setV x nn, rfl, getV_setV_self s x nn, onlyRegisters_setV x nn⟩

/-- Settles O24: the instruction is one write to Vx, of a sum of bytes, which is a sum mod 256. -/
theorem addImmediateWrapsWithoutFlag : Obligations.AddImmediateWrapsWithoutFlag := by
  unfold Obligations.AddImmediateWrapsWithoutFlag
  intro x nn s
  refine ⟨s.setV x (s.getV x + nn), rfl, ?_, onlyRegisters_setV x _⟩
  rw [getV_setV_self, BitVec.toNat_add]

end Sys2Proof.Machine

/-! PROOFS. Copies between registers (42_register_alu.md R131). The frame is `onlyRegisters_setV`. -/

namespace Sys2Proof.Machine

/-- Settles O25: the instruction is one write to Vx, of Vy as it is before the write, x = y included. -/
theorem copyRegister : Obligations.CopyRegister := by
  unfold Obligations.CopyRegister
  intro x y s
  exact ⟨s.setV x (s.getV y), rfl, getV_setV_self s x (s.getV y), onlyRegisters_setV x (s.getV y)⟩

end Sys2Proof.Machine

/-! PROOFS. Writes to the index register (43_index_random.md R150). A write to I leaves everything but I alone, said once; an
instruction's proof adds only the value of I. -/

namespace Sys2Proof.Machine

variable {s : State}

/-- `I <- a` is a write to I alone. -/
theorem onlyIndex_setI (a : Word) : OnlyIndex s (s.setI a) := ⟨rfl, fun _ => rfl⟩

/-- Settles O30: `I <- NNN`, a 12-bit address zero-extended. -/
theorem loadIndex : Obligations.LoadIndex := by
  unfold Obligations.LoadIndex
  intro nnn s
  exact ⟨s.setI (zext16 nnn), rfl, zext16_toNat nnn, onlyIndex_setI _⟩

end Sys2Proof.Machine

/-! PROOFS. Clearing the screen (44_display.md R160, R161). A write to the framebuffer leaves everything but the framebuffer
alone, said once; the instruction's proof adds only the pixels of the cleared framebuffer. -/

namespace Sys2Proof.Machine

variable {s : State}

/-- `FB <- fb` is a write to the framebuffer alone. -/
theorem onlyFramebuffer_setFb (fb : Framebuffer) : OnlyFramebuffer s (s.setFb fb) := ⟨rfl, fun _ => rfl⟩

/-- Settles O33: the instruction is one write of the framebuffer, of the grid with no pixel set. -/
theorem clearScreen : Obligations.ClearScreen := by
  unfold Obligations.ClearScreen
  intro s
  exact ⟨s.setFb (clearFramebuffer s.params), rfl, pixel_clear, onlyFramebuffer_setFb _⟩

end Sys2Proof.Machine

/-! PROOFS. Key skips and the delay timer (45_keyboard_timers.md R180, R181, R182, R183). The frames are `skipIf_spec` and
`onlyRegisters_setV`; the proofs add which key a skip asks for and which byte FX07 writes. -/

namespace Sys2Proof.Machine

/-- The low nibble of a byte is the byte mod 16. -/
theorem lowNibble_toNat (b : Byte) : (lowNibble b).toNat = b.toNat % 16 :=
  BitVec.extractLsb'_toNat 0 4 b

/-- The key number of a byte is the only nibble with the value of the byte mod 16 (R180). -/
theorem keyNumber_eq_iff (b : Byte) (k : Nibble) : keyNumber b = k ↔ k.toNat = b.toNat % 16 := by
  rw [keyNumber, ← BitVec.toNat_inj, lowNibble_toNat, eq_comm]

/-- Settles O37: both instructions are skips, on the key of Vx's low nibble being pressed and on its not being pressed. -/
theorem keySkips : Obligations.KeySkips := by
  unfold Obligations.KeySkips
  intro x k s hk
  obtain rfl := (keyNumber_eq_iff (s.getV x) k).2 hk
  obtain ⟨hskip, hstay, honly⟩ := skipIf_spec (s := s) (Iff.refl (s.keyPressed (keyNumber (s.getV x)) = true))
  obtain ⟨hskip', hstay', honly'⟩ := skipIf_spec (s := s)
    (iff_of_eq (Bool.not_eq_true' (s.keyPressed (keyNumber (s.getV x)))))
  exact ⟨⟨_, rfl, hskip, fun h => hstay (ne_true_of_eq_false h), honly⟩,
    ⟨_, rfl, hskip', fun h => hstay' (ne_false_of_eq_true h), honly'⟩⟩

/-- Settles O39: the instruction is one write of DT to Vx. -/
theorem readDelayTimer : Obligations.ReadDelayTimer := by
  unfold Obligations.ReadDelayTimer
  intro x s
  exact ⟨s.setV x s.dt, rfl, getV_setV_self s x s.dt, onlyRegisters_setV x s.dt⟩

end Sys2Proof.Machine

/-! PROOFS. The font address (46_memory_ops.md R200). The frame is `onlyIndex_setI`; the proof adds only that the address of a
glyph does not wrap. -/

namespace Sys2Proof.Machine

/-- Where the last glyph starts in the range of I, every glyph does, so its address (R60) is the sum itself, unwrapped. -/
theorem fontAddr_toNat {p : Params} (hp : p.fontBase + 15 * p.glyphSize ≤ 0xFFF) (n : Nibble) :
    (fontAddr p n).toNat = p.fontBase + p.glyphSize * n.toNat := by
  have hle : n.toNat * p.glyphSize ≤ 15 * p.glyphSize := Nat.mul_le_mul_right _ (Nat.le_of_lt_succ n.isLt)
  rw [fontAddr, BitVec.toNat_ofNat, Nat.mod_eq_of_lt (by omega), Nat.mul_comm]

/-- Settles O41: the instruction is one write to I, of the address of the glyph of Vx's low nibble. -/
theorem fontAddressOfLowNibble : Obligations.FontAddressOfLowNibble := by
  unfold Obligations.FontAddressOfLowNibble
  intro x s hp
  refine ⟨s.setI (fontAddr s.params (lowNibble (s.getV x))), rfl, ?_, onlyIndex_setI _⟩
  rw [setI_i, fontAddr_toNat hp, lowNibble_toNat]

end Sys2Proof.Machine

/-! PROOFS. Runs that never end (60_exceptions.md R242). A step answers whenever the host's next operation is not a LOAD, and
it leaves of the host's order what issuing that operation leaves (`step_order`); so a condition on the order that issuing keeps
holds along the whole run. -/

namespace Sys2Proof.Machine

variable {s : State}

/-! ### Runs of n steps -/

/-- The host refuses no operation but a LOAD (R61, R70). -/
theorem perform_next {op : HostOp} (hload : ∀ rom, op ≠ .load rom) (s : State) : ∃ t, perform op s = .next t := by
  cases op with
  | step => exact stepOp_next s
  | tick | setKeys | reset => exact ⟨_, rfl⟩
  | load rom => exact absurd rfl (hload rom)

theorem runFor_succ {t : State} (h : step s = .next t) (n : Nat) : s.runFor (n + 1) = t.runFor n := by
  rw [State.runFor, h]

/-- A run never ends along a condition P on the number of operations issued and the state, if from every state that meets P
the step answers one that meets it with the number one higher. -/
theorem runFor_keeps {P : Nat → State → Prop} (hstep : ∀ k s, P k s → ∃ t, step s = .next t ∧ P (k + 1) t) (n : Nat) :
    ∀ {k s}, P k s → ∃ t, s.runFor n = some t ∧ P (k + n) t := by
  induction n with
  | zero => exact fun {k s} hs => ⟨s, rfl, hs⟩
  | succ n ih =>
    intro k s hs
    obtain ⟨t, ht, hkept⟩ := hstep k s hs
    obtain ⟨u, hu, hkept⟩ := ih hkept
    exact ⟨u, (runFor_succ ht n).trans hu, Nat.add_right_comm k 1 n ▸ hkept⟩

/-- A step whose operation is not a LOAD answers a state with the host's order as issuing leaves it. -/
theorem step_next_of_nextOp {op : HostOp} {u : State} (h : s.nextOp = (op, u)) (hload : ∀ rom, op ≠ .load rom) :
    ∃ t, step s = .next t ∧ t.schedule = u.schedule ∧ t.later = u.later := by
  have hissued : s.issued = u := congrArg Prod.snd h
  obtain ⟨t, ht⟩ := perform_next hload u
  have hstep : step s = .next t := by rw [step_eq_perform, hissued, h, ht]
  exact ⟨t, hstep, hissued ▸ step_order hstep⟩

/-! ### A host that repeats a list -/

/-- The host repeats `op :: ops` and has issued k operations of it: some j of the list are gone from the schedule, and j is k
up to whole rounds. At the end of a round all of them are gone (j is the length), which is how the repetition starts too. -/
def RepeatsAt (op : HostOp) (ops : List HostOp) (k : Nat) (s : State) : Prop :=
  s.later = .repeats op ops ∧
  ∃ j ≤ ops.length + 1, k ≡ j [MOD ops.length + 1] ∧ s.schedule = (op :: ops).drop j

variable {op : HostOp} {ops : List HostOp}

theorem repeatsAt_zero (hsched : s.schedule = []) (hlater : s.later = .repeats op ops) : RepeatsAt op ops 0 s := by
  refine ⟨hlater, ops.length + 1, le_rfl, Nat.modulus_modEq_zero.symm, ?_⟩
  rw [hsched, List.drop_eq_nil_of_le (List.length_cons ..).le]

/-- The next operation of such a host is number k of the list modulo its length, and issuing it makes k one higher. -/
theorem RepeatsAt.exists_nextOp {k : Nat} (h : RepeatsAt op ops k s) :
    ∃ o u, s.nextOp = (o, u) ∧ (op :: ops)[k % (ops.length + 1)]? = some o ∧ RepeatsAt op ops (k + 1) u := by
  obtain ⟨hlater, j, hj, hmod, hsched⟩ := h
  rcases hj.lt_or_eq with hlt | rfl
  · have hcons : s.schedule = (op :: ops)[j] :: (op :: ops).drop (j + 1) := hsched.trans (List.drop_eq_getElem_cons hlt)
    refine ⟨_, _, nextOp_scheduled hcons, ?_, hlater, j + 1, hlt, hmod.add_right 1, rfl⟩
    rw [show k % (ops.length + 1) = j from Nat.mod_eq_of_modEq hmod hlt, List.getElem?_eq_getElem hlt]
  · have hround : k ≡ 0 [MOD ops.length + 1] := hmod.trans Nat.modulus_modEq_zero
    have hnil : s.schedule = [] := hsched.trans (List.drop_eq_nil_of_le (List.length_cons ..).le)
    refine ⟨_, _, nextOp_repeats hnil hlater, ?_, hlater, 1, by omega, hround.add_right 1, rfl⟩
    rw [show k % (ops.length + 1) = 0 from hround, List.getElem?_cons_zero]

theorem RepeatsAt.step_next {k : Nat} (hload : ∀ rom, HostOp.load rom ∉ op :: ops) (h : RepeatsAt op ops k s) :
    ∃ t, step s = .next t ∧ RepeatsAt op ops (k + 1) t := by
  obtain ⟨o, u, hnext, ho, hu⟩ := h.exists_nextOp
  obtain ⟨t, ht, hsched, hlater⟩ := step_next_of_nextOp hnext fun rom heq => hload rom (heq ▸ List.mem_of_getElem? ho)
  exact ⟨t, ht, by rwa [RepeatsAt, hsched, hlater]⟩

/-! ### A free host -/

/-- The host is free, and its next operation is the free value number k. -/
def FreeAt (k : Nat) (s : State) : Prop := s.schedule = [] ∧ s.later = .free k

theorem ofRun_ne_load (o : RunOp) (rom : List Byte) : HostOp.ofRun o ≠ .load rom := by
  cases o <;> exact HostOp.noConfusion

theorem FreeAt.step_next {k : Nat} (h : FreeAt k s) : ∃ t, step s = .next t ∧ FreeAt (k + 1) t := by
  obtain ⟨hsched, hlater⟩ := h
  obtain ⟨t, ht, htsched, htlater⟩ := step_next_of_nextOp (nextOp_free hsched hlater) (ofRun_ne_load _)
  exact ⟨t, ht, htsched.trans hsched, htlater⟩

/-- Settles O59: a repeating host stays at some place of its list and a free host at some free value, so every step of either
answers, and the place after n steps gives the next operation. -/
theorem runsGoOnForEver : Obligations.RunsGoOnForEver := by
  unfold Obligations.RunsGoOnForEver
  intro s n hsched
  refine ⟨fun op ops hlater hload => ?_, fun m hlater => ?_⟩
  · obtain ⟨t, ht, hat⟩ := runFor_keeps (fun _ _ h => RepeatsAt.step_next hload h) n (repeatsAt_zero hsched hlater)
    obtain ⟨o, u, hnext, ho, -⟩ := hat.exists_nextOp
    rw [Nat.zero_add] at ho
    exact ⟨t, ht, by rw [hnext, ho]⟩
  · obtain ⟨t, ht, htsched, htlater⟩ := runFor_keeps (P := FreeAt) (fun _ _ => FreeAt.step_next) n ⟨hsched, hlater⟩
    exact ⟨t, ht, by rw [nextOp_free htsched htlater]⟩

end Sys2Proof.Machine

/-! PROOFS. The decoder and the encoder (30_encoding.md R81-R89). Decoding inverts encoding, one constructor at a time; a word
that decodes is rebuilt from its fields, one category at a time; and a word a row of the opcode map matches is the encoding of an
instruction of that row. The statements on the opcode map follow from those three. -/

namespace Sys2Proof

variable {strict : Bool} {op : Word} {i : Instr}

/-! ### Decoding what was encoded -/

/-- The decoder finds in an encoded word the fields its row put there (R81, R84). -/
theorem decode_encode (h : i.wf strict = true) : decode strict (encode i) = .instr i := by
  rw [decode_eq_instr]
  cases i
  case cls | ret => rfl
  case jp | call | seImm | sneImm | ldImm | addImm | ldI | jpV0 | rnd | drw => simp [encode, decodeCategory]
  case seReg | sneReg => cases strict <;> simp_all [encode, decodeCategory, strictNibble, Instr.wf]
  case ldReg | orReg | andReg | xorReg | addReg | sub | shr | subn | shl => simp [encode, decodeCategory, decodeCat8]
  case skp | sknp => simp [encode, decodeCategory, decodeCatE]
  case ldVxDT | ldVxK | ldDTVx | ldSTVx | addI | ldF | ldB | storeRegs | loadRegs =>
    simp [encode, decodeCategory, decodeCatF]

/-- Settles O1: `decode_encode`, for both values of `STRICT_5_9`. -/
theorem decodeOfEncodeIsTheInstruction : Obligations.DecodeOfEncodeIsTheInstruction := by
  unfold Obligations.DecodeOfEncodeIsTheInstruction
  exact fun strict i => decode_encode

/-! ### Encoding what was decoded -/

/-- A word of category c is c and its other fields put together again, in each of the three layouts of R81. -/
theorem nnn_of_category {c : Nibble} (hc : (fieldC op).toNat = c.toNat) : c ++ fieldNNN op = op :=
  BitVec.eq_of_toNat_eq hc ▸ word_eq_nnn op

theorem xnn_of_category {c : Nibble} (hc : (fieldC op).toNat = c.toNat) : c ++ fieldX op ++ fieldNN op = op :=
  BitVec.eq_of_toNat_eq hc ▸ word_eq_xnn op

theorem xyn_of_category {c : Nibble} (hc : (fieldC op).toNat = c.toNat) :
    c ++ fieldX op ++ fieldY op ++ fieldN op = op :=
  BitVec.eq_of_toNat_eq hc ▸ word_eq_xyn op

/-- What the secondary selector of a category answers is encoded by that category and the fields it was given (R85). -/
theorem encode_of_decodeCat0 (h : decodeCat0 op = some i) : encode i = op ∧ i.wf strict = true := by
  unfold decodeCat0 at h
  split_ifs at h <;> cases h <;> subst_vars <;> exact ⟨rfl, rfl⟩

theorem encode_of_decodeCat8 {x y n : Nibble} (h : decodeCat8 x y n = some i) :
    encode i = 0x8#4 ++ x ++ y ++ n ∧ i.wf strict = true := by
  unfold decodeCat8 at h
  split_ifs at h <;> cases h <;> subst_vars <;> exact ⟨rfl, rfl⟩

theorem encode_of_decodeCatE {x : Nibble} {nn : Byte} (h : decodeCatE x nn = some i) :
    encode i = 0xE#4 ++ x ++ nn ∧ i.wf strict = true := by
  unfold decodeCatE at h
  split_ifs at h <;> cases h <;> subst_vars <;> exact ⟨rfl, rfl⟩

theorem encode_of_decodeCatF {x : Nibble} {nn : Byte} (h : decodeCatF x nn = some i) :
    encode i = 0xF#4 ++ x ++ nn ∧ i.wf strict = true := by
  unfold decodeCatF at h
  split_ifs at h <;> cases h <;> subst_vars <;> exact ⟨rfl, rfl⟩

/-- A register skip is let through unless `STRICT_5_9` meets a nonzero low nibble (R86). -/
theorem strictNibble_eq_some {n : Nibble} {j : Instr} :
    strictNibble strict n j = some i ↔ (strict = true → n = 0x0#4) ∧ j = i := by
  unfold strictNibble
  split_ifs with h <;> simp_all

/-- A word that decodes is the encoding of what it decodes to, which is well-formed. Along the categories of R83: the layout
of the category puts the word together again. -/
theorem encode_of_decode (h : decode strict op = .instr i) : encode i = op ∧ i.wf strict = true := by
  rw [decode_eq_instr, decodeCategory] at h
  split at h
  case h_1 => exact encode_of_decodeCat0 h
  case h_2 hc | h_3 hc | h_11 hc | h_12 hc => cases h; exact ⟨nnn_of_category hc, rfl⟩
  case h_4 hc | h_5 hc | h_7 hc | h_8 hc | h_13 hc => cases h; exact ⟨xnn_of_category hc, rfl⟩
  case h_6 hc | h_10 hc =>
    obtain ⟨hn, rfl⟩ := strictNibble_eq_some.1 h
    refine ⟨xyn_of_category hc, ?_⟩
    cases strict <;> simp_all [Instr.wf]
  case h_9 hc => exact xyn_of_category (c := 0x8#4) hc ▸ encode_of_decodeCat8 h
  case h_14 hc => cases h; exact ⟨xyn_of_category hc, rfl⟩
  case h_15 hc => exact xnn_of_category (c := 0xE#4) hc ▸ encode_of_decodeCatE h
  case h_16 hc => exact xnn_of_category (c := 0xF#4) hc ▸ encode_of_decodeCatF h
  case h_17 => cases h

/-- Settles O2: `encode_of_decode`. -/
theorem encodeOfDecodeIsTheWord : Obligations.EncodeOfDecodeIsTheWord := by
  unfold Obligations.EncodeOfDecodeIsTheWord
  exact fun strict op i => encode_of_decode

/-! ### The opcode map -/

/-- The word of every well-formed instruction matches the row of the opcode map that is its own. -/
theorem encodedInRow (i : Instr) : Laws.EncodedInRow.Statement i := by
  open Laws.EncodedInRow in
  cases i
  exacts [cls, ret, jp _, call _, seImm _ _, sneImm _ _, seReg _ _ _, ldImm _ _, addImm _ _, ldReg _ _, orReg _ _,
    andReg _ _, xorReg _ _, addReg _ _, sub _ _, shr _ _, subn _ _, shl _ _, sneReg _ _ _, ldI _, jpV0 _, rnd _ _,
    drw _ _ _, skp _, sknp _, ldVxDT _, ldVxK _, ldDTVx _, ldSTVx _, addI _, ldF _, ldB _, storeRegs _, loadRegs _]

/-- A word that a row matches is the row's fixed bits and the word's other fields put together again, for each of the masks of
R84. -/
theorem nnn_of_match {c : Nibble} (h : (op &&& 0xF000#16 == c ++ 0#12) = true) : c ++ fieldNNN op = op :=
  (match_F000 op c).1 (beq_iff_eq.1 h) ▸ word_eq_nnn op

theorem xnn_of_match {c : Nibble} (h : (op &&& 0xF000#16 == c ++ 0#12) = true) : c ++ fieldX op ++ fieldNN op = op :=
  (match_F000 op c).1 (beq_iff_eq.1 h) ▸ word_eq_xnn op

theorem xyn_of_match {c : Nibble} (h : (op &&& 0xF000#16 == c ++ 0#12) = true) :
    c ++ fieldX op ++ fieldY op ++ fieldN op = op :=
  (match_F000 op c).1 (beq_iff_eq.1 h) ▸ word_eq_xyn op

theorem xy_of_match {c n : Nibble} (h : (op &&& 0xF00F#16 == c ++ 0#4 ++ 0#4 ++ n) = true) :
    c ++ fieldX op ++ fieldY op ++ n = op := by
  obtain ⟨hc, hn⟩ := (match_F00F op c n).1 (beq_iff_eq.1 h)
  rw [← hc, ← hn]
  exact word_eq_xyn op

theorem x_of_match {c : Nibble} {nn : Byte} (h : (op &&& 0xF0FF#16 == c ++ 0#4 ++ nn) = true) :
    c ++ fieldX op ++ nn = op := by
  obtain ⟨hc, hn⟩ := (match_F0FF op c nn).1 (beq_iff_eq.1 h)
  rw [← hc, ← hn]
  exact word_eq_xnn op

theorem eq_of_match {w : Word} (h : (op &&& 0xFFFF#16 == w) = true) : w = op := by
  rw [← beq_iff_eq.1 h, show 0xFFFF#16 = BitVec.allOnes 16 from rfl, BitVec.and_allOnes]

/-- Rows 7 and 19 (R86): with `STRICT_5_9` the low nibble is 0. -/
theorem xyn_of_match_skip {c : Nibble} (h : (op &&& skipMask strict == c ++ 0#12) = true) :
    c ++ fieldX op ++ fieldY op ++ fieldN op = op ∧ (!strict || fieldN op == 0) = true := by
  cases strict
  · exact ⟨xyn_of_match h, rfl⟩
  · have h0 : ∀ c : Nibble, c ++ 0#12 = c ++ 0#4 ++ 0#4 ++ 0#4 := by decide
    obtain ⟨hc, hn⟩ := (match_F00F op c 0#4).1 ((beq_iff_eq.1 h).trans (h0 c))
    exact ⟨hc ▸ word_eq_xyn op, beq_iff_eq.2 hn⟩

/-- A word that a row matches is the encoding of a well-formed instruction of that row: its operands are the word's fields. -/
theorem exists_encode_of_match {r : OpcodeRow} (hr : r ∈ opcodeRows strict) (h : r.matchesWord op = true) :
    ∃ i, encode i = op ∧ i.row = r.num ∧ i.wf strict = true := by
  simp only [opcodeRows, List.cons_append, List.nil_append, List.mem_cons, List.not_mem_nil, or_false] at hr
  rcases hr with rfl | rfl | rfl | rfl | rfl | rfl | rfl | rfl | rfl | rfl | rfl | rfl | rfl | rfl | rfl | rfl | rfl | rfl |
    rfl | rfl | rfl | rfl | rfl | rfl | rfl | rfl | rfl | rfl | rfl | rfl | rfl | rfl | rfl | rfl
  · exact ⟨.cls, eq_of_match h, rfl, rfl⟩
  · exact ⟨.ret, eq_of_match h, rfl, rfl⟩
  · exact ⟨.jp _, nnn_of_match h, rfl, rfl⟩
  · exact ⟨.call _, nnn_of_match h, rfl, rfl⟩
  · exact ⟨.seImm _ _, xnn_of_match h, rfl, rfl⟩
  · exact ⟨.sneImm _ _, xnn_of_match h, rfl, rfl⟩
  · exact ⟨.seReg _ _ _, (xyn_of_match_skip (c := 0x5#4) h).imp_right (⟨rfl, ·⟩)⟩
  · exact ⟨.ldImm _ _, xnn_of_match h, rfl, rfl⟩
  · exact ⟨.addImm _ _, xnn_of_match h, rfl, rfl⟩
  · exact ⟨.ldReg _ _, xy_of_match h, rfl, rfl⟩
  · exact ⟨.orReg _ _, xy_of_match h, rfl, rfl⟩
  · exact ⟨.andReg _ _, xy_of_match h, rfl, rfl⟩
  · exact ⟨.xorReg _ _, xy_of_match h, rfl, rfl⟩
  · exact ⟨.addReg _ _, xy_of_match h, rfl, rfl⟩
  · exact ⟨.sub _ _, xy_of_match h, rfl, rfl⟩
  · exact ⟨.shr _ _, xy_of_match h, rfl, rfl⟩
  · exact ⟨.subn _ _, xy_of_match h, rfl, rfl⟩
  · exact ⟨.shl _ _, xy_of_match h, rfl, rfl⟩
  · exact ⟨.sneReg _ _ _, (xyn_of_match_skip (c := 0x9#4) h).imp_right (⟨rfl, ·⟩)⟩
  · exact ⟨.ldI _, nnn_of_match h, rfl, rfl⟩
  · exact ⟨.jpV0 _, nnn_of_match h, rfl, rfl⟩
  · exact ⟨.rnd _ _, xnn_of_match h, rfl, rfl⟩
  · exact ⟨.drw _ _ _, xyn_of_match h, rfl, rfl⟩
  · exact ⟨.skp _, x_of_match h, rfl, rfl⟩
  · exact ⟨.sknp _, x_of_match h, rfl, rfl⟩
  · exact ⟨.ldVxDT _, x_of_match h, rfl, rfl⟩
  · exact ⟨.ldVxK _, x_of_match h, rfl, rfl⟩
  · exact ⟨.ldDTVx _, x_of_match h, rfl, rfl⟩
  · exact ⟨.ldSTVx _, x_of_match h, rfl, rfl⟩
  · exact ⟨.addI _, x_of_match h, rfl, rfl⟩
  · exact ⟨.ldF _, x_of_match h, rfl, rfl⟩
  · exact ⟨.ldB _, x_of_match h, rfl, rfl⟩
  · exact ⟨.storeRegs _, x_of_match h, rfl, rfl⟩
  · exact ⟨.loadRegs _, x_of_match h, rfl, rfl⟩

/-- A matched row is the row of the instruction the word decodes to. -/
theorem decode_of_match {r : OpcodeRow} (hr : r ∈ opcodeRows strict) (h : r.matchesWord op = true) :
    ∃ i, decode strict op = .instr i ∧ i.row = r.num := by
  obtain ⟨i, rfl, hrow, hwf⟩ := exists_encode_of_match hr h
  exact ⟨i, decode_encode hwf, hrow⟩

/-- A word no row matches is rejected. -/
theorem decode_of_no_match (h : ∀ r ∈ opcodeRows strict, r.matchesWord op = false) :
    decode strict op = .invalidOpcode op := by
  refine (decode_total strict op).resolve_left fun ⟨i, hi⟩ => ?_
  obtain ⟨rfl, hwf⟩ := encode_of_decode hi
  obtain ⟨r, hr, -, hm⟩ := encodedInRow i strict hwf
  exact Bool.false_ne_true ((h r hr).symm.trans hm)

/-- Settles O3: `decode_of_match` and `decode_of_no_match`. -/
theorem decoderFollowsTheOpcodeMap : Obligations.DecoderFollowsTheOpcodeMap := by
  unfold Obligations.DecoderFollowsTheOpcodeMap
  exact fun strict op => ⟨fun r hr h => decode_of_match hr h, decode_of_no_match⟩

/-- The rows of the opcode map are numbered without repetition. -/
theorem opcodeRows_num_injOn (strict : Bool) : ∀ r ∈ opcodeRows strict, ∀ q ∈ opcodeRows strict, r.num = q.num → r = q := by
  cases strict <;> decide

/-- Settles O4: two rows that match a word both carry the number of the instruction it decodes to. -/
theorem opcodeRowsNeverOverlap : Obligations.OpcodeRowsNeverOverlap := by
  unfold Obligations.OpcodeRowsNeverOverlap
  intro strict op r hr q hq hrm hqm
  obtain ⟨i, hi, hir⟩ := decode_of_match hr hrm
  obtain ⟨j, hj, hjq⟩ := decode_of_match hq hqm
  obtain rfl : i = j := Decoded.instr.inj (hi.symm.trans hj)
  exact opcodeRows_num_injOn strict r hr q hq (hir.symm.trans hjq)

/-- Settles O5: the words are encodings, of instructions that are well-formed unless `STRICT_5_9` meets a nonzero nibble. -/
theorem registerSkipsDecodeByStrictness : Obligations.RegisterSkipsDecodeByStrictness := by
  unfold Obligations.RegisterSkipsDecodeByStrictness
  intro x y n
  refine ⟨decode_encode (i := .seReg x y n) rfl, decode_encode (i := .sneReg x y n) rfl,
    fun hn => decode_encode (i := .seReg x y n) (beq_iff_eq.2 hn),
    fun hn => decode_encode (i := .sneReg x y n) (beq_iff_eq.2 hn), fun hn => ?_, fun hn => ?_⟩
  · exact decode_eq_invalid.2 ⟨by simp [decodeCategory, strictNibble, hn], rfl⟩
  · exact decode_eq_invalid.2 ⟨by simp [decodeCategory, strictNibble, hn], rfl⟩

/-- Settles O6: eight of the words are encodings of their instructions. -/
theorem sampleWordsDecode : Obligations.SampleWordsDecode := by
  unfold Obligations.SampleWordsDecode
  exact ⟨decode_encode (i := .cls) rfl, decode_encode (i := .jp 0xABC#12) rfl, decode_encode (i := .ldImm 0xA#4 0x2B#8) rfl,
    decode_encode (i := .shr 0xA#4 0xB#4) rfl, decode_encode (i := .rnd 0x3#4 0x0F#8) rfl,
    decode_encode (i := .drw 0x1#4 0x2#4 0x5#4) rfl, decode_encode (i := .ldVxK 0x2#4) rfl,
    decode_encode (i := .storeRegs 0x2#4) rfl, by decide, by decide⟩

end Sys2Proof

/-! PROOFS. One step of the machine: what a STEP does with what it fetched (30_encoding.md R95, 60_exceptions.md R222-R224), which
operations the latch and the LOAD window let through, the word placed for the next STEP (log 19), and the idle state (R267). -/

namespace Sys2Proof.Machine

variable {s : State}

/-! ### A STEP with no latched fault -/

/-- A STEP begins by advancing PC and ending LOAD's window, on the state with the STEP taken off the host's order. -/
theorem issued_closeRom_advance : s.issued.closeRom.advance = { s.issued with pc := s.pc + 2#16, romOpen := false } := by
  simp only [State.advance, State.setPc, State.closeRom, issued_pc]

theorem step_of_fetch_word (hn : s.stepNext) (hf : s.fault = none) {op : Word} (hw : s.fetch = .word op) :
    step s = decodeAndExec op { s.issued with pc := s.pc + 2#16, romOpen := false } := by
  rw [step_of_stepNext hn, stepOp_word (by simpa using hf) (by simpa using hw), issued_closeRom_advance]

theorem step_of_fetch_instr (hn : s.stepNext) (hf : s.fault = none) {op : Word} (hw : s.fetch = .word op) {i : Instr}
    (hd : decode s.params.strict59 op = .instr i) :
    step s = exec i { s.issued with pc := s.pc + 2#16, romOpen := false } := by
  rw [step_of_fetch_word hn hf hw, decodeAndExec_instr (by simpa using hd)]

/-- A rejected word is latched, with P, which is PC less the 2 it was advanced by (R222). -/
theorem step_of_fetch_invalid (hn : s.stepNext) (hf : s.fault = none) {op : Word} (hw : s.fetch = .word op)
    (hd : decode s.params.strict59 op = .invalidOpcode op) :
    step s = .next { s.issued with
      pc := s.pc + 2#16, romOpen := false, fault := some ⟨.invalidOpcode, s.pc, some op, none, none⟩ } := by
  rw [step_of_fetch_word hn hf hw, decodeAndExec_invalid (by simpa using hd)]
  simp only [State.raiseIn, State.raise, State.fetchedFrom, BitVec.add_sub_cancel]

/-- A fetch out of bounds latches its address, with PC as it was (R222, R225). -/
theorem step_of_fetch_outOfBounds (hn : s.stepNext) (hf : s.fault = none) {addr : Int} (hw : s.fetch = .outOfBounds addr) :
    step s = .next { s.issued with
      romOpen := false, fault := some ⟨.outOfBoundsAccess, s.pc, none, some addr, none⟩ } := by
  rw [step_of_stepNext hn, stepOp_outOfBounds (by simpa using hf) (by simpa using hw)]
  simp only [State.raiseInFetch, State.raise, State.closeRom, issued_pc]

/-- Settles O7: the two bytes are the word the STEP fetches. -/
theorem stepRunsTheDecodedInstruction : Obligations.StepRunsTheDecodedInstruction := by
  unfold Obligations.StepRunsTheDecodedInstruction
  exact fun s b0 b1 i hn hf h0 h1 hd => step_of_fetch_instr hn hf (fetch_word h0 h1) hd

/-- Settles O8: of the cases of a fetch, the hypothesis on the addresses leaves one. -/
theorem fetchOutOfBoundsIsLatched : Obligations.FetchOutOfBoundsIsLatched := by
  unfold Obligations.FetchOutOfBoundsIsLatched
  intro s hn hf
  refine ⟨fun hbad => ?_, fun hgood hbad => ?_⟩ <;>
    obtain ⟨h0, h1, -⟩ | ⟨h0, hw⟩ | ⟨h0, h1, hw⟩ := fetch_cases s
  · exact absurd h0 hbad
  · exact step_of_fetch_outOfBounds hn hf hw
  · exact absurd h0 hbad
  · exact absurd h1 hbad
  · exact absurd hgood h0
  · exact step_of_fetch_outOfBounds hn hf hw

/-- Settles O9: a word no row matches is rejected (`decode_of_no_match`). -/
theorem illegalWordIsLatched : Obligations.IllegalWordIsLatched := by
  unfold Obligations.IllegalWordIsLatched
  exact fun s b0 b1 hn hf h0 h1 hrows => step_of_fetch_invalid hn hf (fetch_word h0 h1) (decode_of_no_match hrows)

/-! ### The latch and the LOAD window -/

/-- Settles O10: a STEP of a latched state is the state itself. -/
theorem faultedStepChangesNothing : Obligations.FaultedStepChangesNothing := by
  unfold Obligations.FaultedStepChangesNothing
  intro s r hn hf
  have hi : s.issued.fault = some r := by simpa using hf
  exact ⟨(step_of_stepNext hn).trans (stepOp_latched hi), (result_eq_err _ r).2 hi⟩

/-- No operation but RESET changes a latched record (R224). -/
theorem perform_keeps_latch {op : HostOp} {t : State} {r : FaultRecord} (h : perform op s = .next t) (hf : s.fault = some r)
    (hop : ∀ l, op ≠ .reset l) : t.fault = some r := by
  cases op with
  | step => rw [show perform .step s = stepOp s from rfl, stepOp_latched hf] at h; cases h; exact hf
  | load rom => simp only [perform] at h; split at h <;> cases h; exact hf
  | tick | setKeys => cases h; exact hf
  | reset l => exact absurd rfl (hop l)

/-- Settles O11: a step performs the operation on a state with the same latch. -/
theorem onlyResetClearsTheLatch : Obligations.OnlyResetClearsTheLatch := by
  unfold Obligations.OnlyResetClearsTheLatch
  intro s t r h hf hop
  rw [step_eq_perform] at h
  exact perform_keeps_latch h (by simpa using hf) hop

theorem perform_load (rom : List Byte) :
    perform (.load rom) s = if s.romOpen then .next (s.loadRom rom) else .refused .loadOutOfOrder := rfl

/-- Settles O12: LOAD asks whether its window is open, and every other operation answers (`perform_next`). -/
theorem onlyMisplacedLoadIsRefused : Obligations.OnlyMisplacedLoadIsRefused := by
  unfold Obligations.OnlyMisplacedLoadIsRefused
  intro s
  refine ⟨fun ⟨⟨rom, hop⟩, hclosed⟩ => ?_, fun hplaced => ?_⟩
  · rw [step_eq_perform, hop, perform_load, issued_romOpen, hclosed]
    rfl
  · rw [step_eq_perform]
    by_cases hload : ∃ rom, s.nextOp.1 = .load rom
    · obtain ⟨rom, hop⟩ := hload
      have hopen : s.romOpen = true := by
        rw [← Bool.not_eq_false]
        exact fun hclosed => hplaced ⟨⟨rom, hop⟩, hclosed⟩
      exact ⟨s.issued.loadRom rom, by rw [hop, perform_load, issued_romOpen, hopen]; rfl⟩
    · exact perform_next (fun rom heq => hload ⟨rom, heq⟩) s.issued

/-! ### The word placed for the next STEP -/

/-- In an instance PC holds `PROGRAM_OFFSET` unwrapped (log 22). -/
theorem programOffset_toNat {p : Params} (hp : paramsWf p) : (BitVec.ofNat 16 p.programOffset).toNat = p.programOffset := by
  obtain ⟨-, -, -, -, -, hprog, hcap⟩ := hp
  rw [BitVec.toNat_ofNat, Nat.mod_eq_of_lt (by omega)]

/-- In an instance the two addresses from `fetchablePc` on are in memory, and it is no negative number (log 19, log 22). -/
theorem fetchablePc_valid (hp : paramsWf s.params) :
    s.fetchablePc.toInt = s.fetchablePc.toNat ∧ s.fetchablePc.toNat + 1 < s.params.memCapacity := by
  unfold State.fetchablePc
  split_ifs with h
  · simp only [Bool.and_eq_true, inBounds_iff] at h
    obtain ⟨⟨hpos, -⟩, ⟨-, hlt⟩⟩ := h
    have heq := toInt_eq_toNat_of_nonneg hpos
    omega
  · have hnat := programOffset_toNat hp
    obtain ⟨-, -, -, -, -, hprog, hcap⟩ := hp
    rw [BitVec.toInt_eq_toNat_cond, hnat]
    split <;> omega

/-- The host's next operation after a word was placed is a STEP. -/
theorem placeWord_stepNext (op : Word) : (s.placeWord op).stepNext := by
  unfold State.stepNext State.placeWord State.nextOp
  split
  · rename_i op' ops h
    split at h <;> simp_all
  · rename_i h
    split at h <;> simp_all

/-- The bytes of a state with a word placed: the word's two at its address, high byte first, the bytes before elsewhere. -/
theorem memRead_placeWord (hp : paramsWf s.params) (hm : Memory.wf s.params s.mem) (op : Word) (c : Int) :
    (s.placeWord op).memRead c =
      if c = (s.fetchablePc.toNat + 1 : Nat) then some (lowByte op)
      else if c = s.fetchablePc.toNat then some (highByte op) else s.memRead c := by
  obtain ⟨-, hlt⟩ := fetchablePc_valid hp
  have hhigh := memRead_setMem_set hm (a := s.fetchablePc.toNat) (by omega) (highByte op) c
  have hlow := memRead_setMem_set (s := s.setMem (Memory.set s.params s.mem s.fetchablePc.toNat (highByte op)))
    (set_wf hm (by omega) _) (a := (s.fetchablePc.toNat + 1 : Nat)) (by rw [setMem_params]; omega) (lowByte op) c
  rw [← hhigh]
  exact hlow

/-- The word placed is the word fetched. -/
theorem placeWord_fetch (hp : paramsWf s.params) (hm : Memory.wf s.params s.mem) (op : Word) :
    (s.placeWord op).fetch = .word op := by
  have hpc : (s.placeWord op).pc.toInt = s.fetchablePc.toNat := (fetchablePc_valid hp).1
  have h0 : (s.placeWord op).memRead (s.placeWord op).pc.toInt = some (highByte op) := by
    rw [hpc, memRead_placeWord hp hm, if_neg (by omega), if_pos rfl]
  have h1 : (s.placeWord op).memRead ((s.placeWord op).pc.toInt + 1) = some (lowByte op) := by
    rw [hpc, memRead_placeWord hp hm, if_pos (by omega)]
  rw [fetch_word h0 h1, wordOfBytes_high_low]

/-- Settles O13: the state of the entry point fetches the word placed, with a STEP next and a clear latch. -/
theorem placedWordRunsNext : Obligations.PlacedWordRunsNext := by
  unfold Obligations.PlacedWordRunsNext
  intro s w i hp hm hd
  have hw : tableWord 16 w = BitVec.ofNat 16 w := BitVec.eq_of_toNat_eq (by simp [tableWord])
  rw [State.withFetchWord, hw]
  exact step_of_fetch_instr (placeWord_stepNext _) rfl (placeWord_fetch hp hm _) hd

/-! ### The idle state -/

/-- Settles O52: the STEP that repeats leaves the host's order as it is, and the jump sets PC to what it was. -/
theorem idleStateStays : Obligations.IdleStateStays := by
  unfold Obligations.IdleStateStays
  rintro s ⟨hf, nnn, hpc, hw⟩ hsched hlater hrom
  have hnext : s.nextOp = (.step, s) := by rw [nextOp_repeats hsched hlater, ← hsched]
  have hissued : s.issued = s := congrArg Prod.snd hnext
  rw [step_of_fetch_instr (congrArg Prod.fst hnext) hf hw (decode_encode rfl), hissued, ← hrom]
  show Host.Outcome.next { s with pc := zext16 nnn } = _
  rw [← hpc]

end Sys2Proof.Machine

/-! PROOFS. The host's operations other than STEP (60_exceptions.md R240, R241, 10_state.md R37, 20_memory.md R61,
70_reset_and_hazards.md R260), and the state after reset. -/

namespace Sys2Proof.Machine

variable {s : State}

/-! ### TICK and the keyboard -/

/-- A timer goes down by 1 and stays at 0 (R240). -/
theorem countDown_toNat (t : Byte) : (countDown t).toNat = t.toNat - 1 := by
  unfold countDown
  split_ifs with h
  · subst h; rfl
  · bv_omega

/-- Settles O53: TICK counts both timers down, and a timer that was 1 is one that is 0 after it. -/
theorem tickCountsBothTimersDown : Obligations.TickCountsBothTimersDown := by
  unfold Obligations.TickCountsBothTimersDown
  intro s hop
  have hdt : s.issued.tick.dt = countDown s.dt := congrArg countDown (issued_dt s)
  have hst : s.issued.tick.st = countDown s.st := congrArg countDown (issued_st s)
  have hedge : s.issued.tick.soundEdge = (s.st == 1#8) := congrArg (· == 1#8) (issued_st s)
  refine ⟨s.issued.tick, by rw [step_eq_perform, hop]; rfl, ?_, ?_, ?_, rfl, sameMemory_of_mem (issued_params s) (issued_mem s)⟩
  · rw [hdt, countDown_toNat]
  · rw [hst, countDown_toNat]
  · rw [hedge, hst, beq_iff_eq]
    exact ⟨fun h => ⟨h, h ▸ rfl⟩, And.left⟩

/-- Settles O54: the operation is one write of the keyboard. -/
theorem keyChangeTouchesOnlyTheKeyboard : Obligations.KeyChangeTouchesOnlyTheKeyboard := by
  unfold Obligations.KeyChangeTouchesOnlyTheKeyboard
  intro s keys hop
  exact ⟨{ s.issued with keys := keys }, by rw [step_eq_perform, hop]; rfl, fun _ => rfl, rfl,
    sameMemory_of_mem (issued_params s) (issued_mem s)⟩

/-! ### LOAD -/

/-- A run of bytes written from a on: byte k of it where that address is in memory. -/
theorem memRead_setRun_inside (hm : Memory.wf s.params s.mem) {a k : Nat} {bs : List Byte} (hk : k < bs.length)
    (hlt : a + k < s.params.memCapacity) :
    (s.setMem (Memory.setRun s.params s.mem a bs)).memRead ((a + k : Nat) : Int) = some bs[k] := by
  rw [memRead_setMem_valid (by omega), Int.toNat_natCast, get_setRun hm, dif_pos (by omega)]
  simp only [Nat.add_sub_cancel_left]

/-- It leaves every address below it and above it alone. -/
theorem memRead_setRun_outside (hm : Memory.wf s.params s.mem) {a : Nat} {bs : List Byte} {c : Int}
    (hc : c < a ∨ (a : Int) + bs.length ≤ c) :
    (s.setMem (Memory.setRun s.params s.mem a bs)).memRead c = s.memRead c := by
  by_cases hv : validAddr s.params c
  · rw [memRead_setMem_valid hv, memRead_valid hv, get_setRun hm, dif_neg (by omega)]
  · rw [memRead_setMem_invalid hv, memRead_invalid hv]

/-- Settles O55: LOAD writes the image as a run of bytes. -/
theorem loadWritesTheImage : Obligations.LoadWritesTheImage := by
  unfold Obligations.LoadWritesTheImage
  intro s rom hm hop hopen
  have hread : ∀ a, (s.issued.loadRom rom).memRead a =
      (s.setMem (Memory.setRun s.params s.mem s.params.programOffset rom)).memRead a :=
    memRead_congr (s := s.setMem _) (t := s.issued.loadRom rom) (issued_params s)
      (by simp only [State.loadRom, issued_params, issued_mem, setMem_mem])
  refine ⟨s.issued.loadRom rom, ?_, fun k hk hlt => ?_, fun a ha => ?_, ?_, rfl⟩
  · rw [step_eq_perform, hop, perform_load, issued_romOpen, hopen]
    rfl
  · rw [hread, memRead_setRun_inside hm hk hlt]
  · rw [hread, memRead_setRun_outside hm ha]
  · simp only [State.loadRom, issued_params, decide_eq_true_eq]
    omega

/-! ### RESET -/

/-- In an instance the whole font lies in memory (R58). -/
theorem font_in_memory {p : Params} (hp : paramsWf p) : p.fontBase + p.fontTable.length ≤ p.memCapacity := by
  obtain ⟨⟨hlen, -⟩, -, -, hfit, -⟩ := hp
  omega

/-- A byte of memory after RESET is read from the launch's cells with the font written over them. -/
theorem memRead_resetTo (l : Launch) (a : Int) :
    (s.resetTo l).memRead a =
      ((s.setMem (Memory.ofCells s.params [] l.mem)).setMem
        (Memory.setRun s.params (Memory.ofCells s.params [] l.mem) s.params.fontBase s.params.fontTable)).memRead a := rfl

/-- The font stands in its place after RESET. -/
theorem memRead_resetTo_font (hp : paramsWf s.params) (l : Launch) {k : Nat} (hk : k < s.params.fontTable.length) :
    (s.resetTo l).memRead ((s.params.fontBase + k : Nat) : Int) = some s.params.fontTable[k] := by
  have hfit := font_in_memory hp
  rw [memRead_resetTo]
  exact memRead_setRun_inside (s := s.setMem _) (ofCells_wf nil_wf l.mem) hk (by rw [setMem_params]; omega)

/-- Outside the font the last of the launch's cells that names an address gives its byte. -/
theorem memRead_resetTo_cell {l : Launch} {pre post : List Host.Cell} {a : Nat} {b : Byte}
    (hmem : l.mem = pre ++ (a, b) :: post) (hpost : ∀ c ∈ post, c.1 ≠ a) (ha : a < s.params.memCapacity)
    (hout : a < s.params.fontBase ∨ s.params.fontBase + s.params.fontTable.length ≤ a) :
    (s.resetTo l).memRead (a : Int) = some b := by
  rw [memRead_resetTo]
  refine (memRead_setRun_outside (s := s.setMem _) (ofCells_wf nil_wf l.mem) (by omega)).trans ?_
  rw [memRead_setMem_valid (by omega), Int.toNat_natCast, hmem, get_ofCells_last nil_wf pre post ha hpost]

/-- Settles O56: the fields are RESET's own; memory is the launch's cells with the font over them. -/
theorem resetGivesTheInitialState : Obligations.ResetGivesTheInitialState := by
  unfold Obligations.ResetGivesTheInitialState
  intro s l hp hop
  have hpi : paramsWf s.issued.params := by rwa [issued_params]
  have hi : l.i.toNat = (s.issued.resetTo l).i.toNat := (zext16_toNat l.i).symm
  refine ⟨s.issued.resetTo l, by rw [step_eq_perform, hop]; rfl, ?_, rfl, rfl, rfl, pixel_clear, ?_, fun _ => rfl, hi.symm, rfl,
    rfl, ?_, rfl, issued_keys s, issued_rnd s, issued_draws s, issued_params s, rfl, rfl, resetTo_inv hpi l⟩
  · rw [← issued_params]
    exact programOffset_toNat hpi
  · rw [← issued_params]
    exact fun k hk => memRead_resetTo_font hpi l hk
  · rw [← issued_params]
    exact fun pre post a b hmem hpost ha hout => memRead_resetTo_cell hmem hpost ha hout

/-- Launch values that are all 0, with no cell of memory named (log 2, log 3). -/
def zeroLaunch : Launch where
  v := Vector.replicate 16 0#8
  i := 0#12
  dt := 0#8
  st := 0#8
  mem := []

/-- The state after reset is what RESET gives for them: the font's bytes are what a blank address reads, so none is listed. -/
theorem reset_eq_resetTo : State.reset = State.reset.resetTo zeroLaunch := by decide

/-- Settles O57: the invariant and the font's bytes are those of a RESET (`reset_eq_resetTo`). -/
theorem resetStateMeetsTheInvariant : Obligations.ResetStateMeetsTheInvariant := by
  unfold Obligations.ResetStateMeetsTheInvariant
  have hp : paramsWf State.reset.params := by decide
  refine ⟨?_, rfl, rfl, rfl, pixel_clear, rfl, fun k hk => ?_, memRead_invalid (by decide), rfl⟩
  · rw [reset_eq_resetTo]
    exact resetTo_inv (s := State.reset) hp zeroLaunch
  · rw [reset_eq_resetTo]
    exact memRead_resetTo_font (s := State.reset) hp zeroLaunch hk

end Sys2Proof.Machine

/-! PROOFS. The call stack: Push and Pop (20_memory.md R62, R63), call and return (40_control_flow.md R101, R103), and the skips on
two registers (R106, R107). -/

namespace Sys2Proof.Machine

variable {s t : State}

/-! ### Push and Pop -/

/-- Push answers exactly where the stack has room, with the address last. -/
theorem push_eq_some {a : Word} :
    s.push a = some t ↔ s.params.stackDepth ≠ some s.stack.length ∧ t = { s with stack := s.stack ++ [a] } := by
  cases hfull : s.stackFull with
  | true => simp [push_of_full hfull, (stackFull_iff s).1 hfull]
  | false =>
    have hroom : s.params.stackDepth ≠ some s.stack.length := by
      rw [ne_eq, ← stackFull_iff, hfull]
      exact Bool.false_ne_true
    simp [push_of_not_full hfull, hroom, eq_comm]

/-- Settles O15: Push leaves the address last, where Pop takes it. -/
theorem popAfterPushGivesTheEntry : Obligations.PopAfterPushGivesTheEntry := by
  unfold Obligations.PopAfterPushGivesTheEntry
  intro s t a h
  obtain ⟨-, rfl⟩ := push_eq_some.1 h
  exact ⟨rfl, pop_append rfl⟩

/-! ### Call and return -/

theorem exec_ret_append {st : List Word} {a : Word} (h : s.stack = st ++ [a]) :
    exec .ret s = .next { s with pc := a, stack := st } := by
  simp only [exec, execRet, pop_append h, State.setPc]

theorem exec_ret_nil (h : s.stack = []) : exec .ret s = .next (s.raiseIn (encode .ret) .stackUnderflow none none) := by
  simp only [exec, execRet, pop_nil h]

theorem exec_call_room (nnn : Addr12) (h : s.params.stackDepth ≠ some s.stack.length) :
    exec (.call nnn) s = .next { s with pc := zext16 nnn, stack := s.stack ++ [s.pc] } := by
  simp only [exec, execCall, push_eq_some.2 ⟨h, rfl⟩, State.setPc]

theorem exec_call_full (nnn : Addr12) (h : s.params.stackDepth = some s.stack.length) :
    exec (.call nnn) s = .next (s.raiseIn (encode (.call nnn)) .stackOverflow none (some s.stack.length)) := by
  simp only [exec, execCall, push_of_full ((stackFull_iff s).2 h)]

/-- Settles O16: Pop of a stack with a last entry, and of an empty one. -/
theorem returnPopsIntoPc : Obligations.ReturnPopsIntoPc := by
  unfold Obligations.ReturnPopsIntoPc
  exact ⟨fun s rest a h => ⟨_, exec_ret_append h, rfl, rfl, rfl, fun _ => rfl⟩,
    fun s h => ⟨_, exec_ret_nil h, rfl, rfl, fun _ => rfl⟩⟩

/-- Settles O18: Push of a stack with room, and of a full one. -/
theorem callPushesThenJumps : Obligations.CallPushesThenJumps := by
  unfold Obligations.CallPushesThenJumps
  exact fun nnn s => ⟨fun h => ⟨_, exec_call_room nnn h, zext16_toNat nnn, rfl, rfl, fun _ => rfl⟩,
    fun h => ⟨_, exec_call_full nnn h, rfl, rfl, fun _ => rfl⟩⟩

/-- Settles O19: the call leaves P + 2 last on the stack, and the return takes it from there. -/
theorem callThenReturnRestoresPc : Obligations.CallThenReturnRestoresPc := by
  unfold Obligations.CallThenReturnRestoresPc
  intro nnn s t u hroom hcall hstack
  rw [exec_call_room nnn hroom] at hcall
  cases hcall
  exact ⟨_, exec_ret_append hstack, rfl, rfl⟩

/-! ### Skips on two registers -/

/-- Settles O22: both instructions are skips, on `Vx = Vy` and on `Vx ≠ Vy`, whatever the low nibble. -/
theorem registerSkips : Obligations.RegisterSkips := by
  unfold Obligations.RegisterSkips
  intro x y n s
  refine ⟨⟨s.skipIf (s.getV x == s.getV y), rfl, skipIf_spec beq_iff_eq⟩, ⟨s.skipIf (s.getV x != s.getV y), rfl, ?_⟩⟩
  obtain ⟨htaken, hnot, honly⟩ := skipIf_spec (s := s) (bne_iff_ne (a := s.getV x) (b := s.getV y))
  exact ⟨htaken, fun heq => hnot (not_not_intro heq), honly⟩

end Sys2Proof.Machine

/-! PROOFS. Operations on two registers (42_register_alu.md R130, R132-R139). A result and a flag leave everything but Vx and VF
alone, and VF ends with the flag, said once; an instruction's proof adds the value of the result and of the flag. -/

namespace Sys2Proof.Machine

variable {s : State}

/-! ### Logic -/

/-- Settles O26: each instruction is one write to Vx, of the bytes' OR, AND, XOR. -/
theorem bitwiseOperations : Obligations.BitwiseOperations := by
  unfold Obligations.BitwiseOperations
  intro x y s
  refine ⟨⟨s.setV x (s.getV x ||| s.getV y), rfl, fun k _ => ?_, onlyRegisters_setV x _⟩,
    ⟨s.setV x (s.getV x &&& s.getV y), rfl, fun k _ => ?_, onlyRegisters_setV x _⟩,
    ⟨s.setV x (s.getV x ^^^ s.getV y), rfl, fun k _ => ?_, onlyRegisters_setV x _⟩⟩
  · rw [getV_setV_self, BitVec.getLsbD_or]
  · rw [getV_setV_self, BitVec.getLsbD_and]
  · rw [getV_setV_self, BitVec.getLsbD_xor]

/-! ### A result and a flag -/

/-- The result to Vx and the flag to VF are writes to those two alone; the flag, written last, is what VF holds (R130). -/
theorem setVFlag_spec (x : Nibble) (r : Byte) (f : Bool) :
    (x ≠ 0xF#4 → (s.setVFlag x r f).getV x = r) ∧ (s.setVFlag x r f).getV 0xF#4 = flagByte f ∧
      OnlyRegisters [x, 0xF#4] s (s.setVFlag x r f) := by
  refine ⟨getV_setVFlag_dest s x r f, getV_setVFlag_flag s x r f, fun q hq => ?_, setVFlag_eq s x r f, fun _ => rfl⟩
  obtain ⟨hx, hf⟩ : q ≠ x ∧ q ≠ 0xF#4 := by simpa using hq
  exact getV_setVFlag_of_ne s x q r f hx.symm hf.symm

/-- A flag that decides P is 1 where P holds and 0 where it does not. -/
theorem flagByte_decide (P : Prop) [Decidable P] : flagByte (decide P) = if P then 1#8 else 0#8 := by
  unfold flagByte
  split_ifs <;> simp_all

/-- An instruction that answers a result and a flag, as the statements on such instructions read it. -/
theorem exists_setVFlag {o : Host.Outcome State Fault Refusal} {x : Nibble} {r : Byte} {f : Bool}
    (h : o = .next (s.setVFlag x r f)) {P : Byte → Prop} {Q : Byte → Prop} (hr : P r) (hf : Q (flagByte f)) :
    ∃ t, o = .next t ∧ (x ≠ 0xF#4 → P (t.getV x)) ∧ Q (t.getV 0xF#4) ∧ OnlyRegisters [x, 0xF#4] s t := by
  obtain ⟨hdest, hflag, honly⟩ := setVFlag_spec (s := s) x r f
  exact ⟨_, h, fun hx => (hdest hx).symm ▸ hr, hflag.symm ▸ hf, honly⟩

/-- Settles O27: a sum of bytes is a sum mod 256, and the carry is the sum exceeding 255. -/
theorem addRegistersWithCarry : Obligations.AddRegistersWithCarry := by
  unfold Obligations.AddRegistersWithCarry
  intro x y s
  exact exists_setVFlag (P := fun b => b.toNat = _) (Q := (· = _)) rfl (BitVec.toNat_add _ _) (flagByte_decide _)

/-- A difference of bytes is the integer difference mod 256. -/
theorem toNat_sub_byte (a b : Byte) : ((a - b).toNat : Int) = ((a.toNat : Int) - b.toNat) % 256 := by
  rw [BitVec.toNat_sub]
  omega

/-- Settles O28: both instructions write a difference of bytes, and the flag compares the same two. -/
theorem subtractRegistersWithNoBorrow : Obligations.SubtractRegistersWithNoBorrow := by
  unfold Obligations.SubtractRegistersWithNoBorrow
  intro x y s
  exact ⟨exists_setVFlag (P := fun b => (b.toNat : Int) = _) (Q := (· = _)) rfl (toNat_sub_byte _ _) (flagByte_decide _),
    exists_setVFlag (P := fun b => (b.toNat : Int) = _) (Q := (· = _)) rfl (toNat_sub_byte _ _) (flagByte_decide _)⟩

/-- The bit a shift by one shifts out, as a number (R137, R139). -/
theorem flagByte_shiftedOutRight (a : Byte) : (flagByte (shiftedOutRight a)).toNat = a.toNat % 2 := by
  revert a; decide

theorem flagByte_shiftedOutLeft (a : Byte) : (flagByte (shiftedOutLeft a)).toNat = a.toNat / 128 := by
  revert a; decide

/-- A shift by one halves a byte, respectively doubles it mod 256. -/
theorem toNat_shr_one (a : Byte) : (a >>> 1).toNat = a.toNat / 2 := by
  rw [BitVec.toNat_ushiftRight, Nat.shiftRight_one]

theorem toNat_shl_one (a : Byte) : (a <<< 1).toNat = a.toNat * 2 % 256 := by
  rw [BitVec.toNat_shiftLeft, Nat.shiftLeft_eq, Nat.pow_one]

/-- Settles O29: both instructions shift Vx by one, and the flag is the bit shifted out. -/
theorem shiftsUseVxAlone : Obligations.ShiftsUseVxAlone := by
  unfold Obligations.ShiftsUseVxAlone
  intro x y s
  exact ⟨exists_setVFlag (P := fun b => b.toNat = _) (Q := fun b => b.toNat = _) rfl (toNat_shr_one _)
      (flagByte_shiftedOutRight _),
    exists_setVFlag (P := fun b => b.toNat = _) (Q := fun b => b.toNat = _) rfl (toNat_shl_one _)
      (flagByte_shiftedOutLeft _)⟩

end Sys2Proof.Machine

/-! PROOFS. Sums in the index register, the random byte, the timers and the key wait (43_index_random.md R151, R152,
45_keyboard_timers.md R184-R186). -/

namespace Sys2Proof.Machine

/-- Settles O31: the instruction is one write to I, of a number below 4096, which 16 bits hold. -/
theorem addToIndexWrapsAt4096 : Obligations.AddToIndexWrapsAt4096 := by
  unfold Obligations.AddToIndexWrapsAt4096
  intro x s
  refine ⟨s.setI _, rfl, ?_, onlyIndex_setI _⟩
  rw [setI_i, BitVec.toNat_ofNat, Nat.mod_eq_of_lt (by omega)]

/-- Settles O32: the port answers the byte supplied or a free value, and the instruction writes it to Vx. -/
theorem randomByteIsMasked : Obligations.RandomByteIsMasked := by
  unfold Obligations.RandomByteIsMasked
  intro x nn s
  refine ⟨fun b bs h => ?_, fun h => ?_⟩
  · refine ⟨State.setV { s with rnd := bs } x (b &&& nn), ?_, getV_setV_self _ _ _, fun r hr => ?_, rfl, fun _ => rfl⟩
    · simp only [exec, execRnd, rndNext_supplied h]
    · exact getV_setV_of_ne _ _ _ _ (Ne.symm hr)
  · refine ⟨State.setV { s with draws := s.draws + 1 } x (Config.rndByte s.draws &&& nn), ?_, getV_setV_self _ _ _,
      fun r hr => ?_, rfl, fun _ => rfl⟩
    · simp only [exec, execRnd, rndNext_free h]
    · exact getV_setV_of_ne _ _ _ _ (Ne.symm hr)

/-- Settles O40: each instruction is one write of Vx to a timer. -/
theorem setTimers : Obligations.SetTimers := by
  unfold Obligations.SetTimers
  exact fun x s => ⟨⟨s.setDt (s.getV x), rfl, rfl, rfl, fun _ => rfl⟩, ⟨s.setSt (s.getV x), rfl, rfl, rfl, fun _ => rfl⟩⟩

/-- Settles O38: `Key.any()` answers no key exactly where none is pressed (`keyAny_cases`). -/
theorem keyWaitStoresAPressedKey : Obligations.KeyWaitStoresAPressedKey := by
  unfold Obligations.KeyWaitStoresAPressedKey
  intro x s
  refine ⟨fun hnone => ?_, fun ⟨k₀, hk₀⟩ => ?_⟩ <;>
    obtain ⟨hno, hany⟩ | ⟨k, hk, hany, hkept⟩ := keyAny_cases s
  · exact ⟨s.setPc s.fetchedFrom, by simp only [exec, execLdVxK, hany], rfl, onlyPc_setPc _⟩
  · exact absurd hk (ne_true_of_eq_false (hnone k))
  · exact absurd hk₀ (ne_true_of_eq_false (hno k₀))
  · refine ⟨s.keyAny.2.setV x (k.setWidth 8), k, by simp only [exec, execLdVxK, hany], hk, ?_, fun r hr => ?_, ?_, ?_⟩
    · rw [getV_setV_self, BitVec.toNat_setWidth_of_le (by decide)]
    · rw [getV_setV_of_ne _ _ _ _ (Ne.symm hr), hkept]
      rfl
    · rw [hkept]
      rfl
    · rw [hkept]
      exact fun _ => rfl

end Sys2Proof.Machine

/-! PROOFS. Stores and loads at I + k (46_memory_ops.md R201-R203): what a run of accesses leaves when every address is in bounds,
and when the access at I + k is the first one that is not. The three instructions are such runs. -/

namespace Sys2Proof.Machine

variable {s : State}

/-! ### Runs of stores -/

section Stores

variable (op : Word) {g : State → Nat → Byte} (hg : ∀ t m j, g (t.setMem m) j = g t j) {n k : Nat}
include hg

/-- A run of stores at I, …, I + n - 1, all in bounds, changes no other byte and nothing else. -/
theorem onlyIndexedBytes_settle_storeAt (hm : Memory.wf s.params s.mem) (hv : ∀ j < n, validAddr s.params (s.indexed j)) :
    OnlyIndexedBytes n s (settle op (accessUp (fun j t => t.storeAt j (g t j)) 0 n s)) := by
  obtain ⟨m, hrun, -, hget⟩ := accessUp_storeAt g hg n 0 s hm fun j _ hj => hv j (by omega)
  rw [hrun]
  exact ⟨rfl, memRead_run_frame (g s) (by simpa using hget)⟩

/-- With the access at I + k the first one out of bounds, that address is latched, and nothing else changes but the bytes
before it. -/
theorem settle_storeAt_outOfBounds (hm : Memory.wf s.params s.mem) (hk : k < n) (hfirst : FirstOutOfBounds s k) :
    ∃ m, settle op (accessUp (fun j t => t.storeAt j (g t j)) 0 n s) =
        (s.setMem m).raiseIn op .outOfBoundsAccess (some (s.indexed k)) none ∧
      ∀ a : Int, (∀ j < k, a ≠ s.indexed j) → (s.setMem m).memRead a = s.memRead a := by
  obtain ⟨hbad, hbefore⟩ := hfirst
  obtain ⟨m, hrun, -, hget⟩ :=
    accessUp_storeAt_outOfBounds g hg n 0 k s hm (Nat.zero_le k) (by omega) (fun j _ hj => hbefore j hj) hbad
  exact ⟨m, by rw [hrun]; rfl, memRead_run_frame (g s) hget⟩

end Stores

/-- Settles O42: FX33 is a run of three stores, of the digits of Vx. -/
theorem decimalDigitsAreStored : Obligations.DecimalDigitsAreStored := by
  unfold Obligations.DecimalDigitsAreStored
  intro x s hm
  refine ⟨fun hv => ?_, fun k hk hfirst => ?_⟩
  · have hdigit : ∀ k < 3, _ := fun k hk => memRead_of_exec_ldB (s := s) (x := x) rfl hm hv hk
    exact ⟨_, rfl, hdigit 0 (by omega), hdigit 1 (by omega), hdigit 2 (by omega),
      onlyIndexedBytes_settle_storeAt _ (fun _ _ _ => rfl) hm hv⟩
  · obtain ⟨m, hend, hframe⟩ := settle_storeAt_outOfBounds (encode (.ldB x)) (g := fun _ j => bcdDigit (s.getV x) j)
      (fun _ _ _ => rfl) hm hk hfirst
    exact ⟨_, congrArg Host.Outcome.next hend, rfl, rfl, hframe⟩

/-- Settles O43: FX55 is a run of x + 1 stores, of the registers from V0 on. -/
theorem registersAreStored : Obligations.RegistersAreStored := by
  unfold Obligations.RegistersAreStored
  intro x s hm
  refine ⟨fun hv => ⟨_, rfl, fun r hr => ?_, onlyIndexedBytes_settle_storeAt _ (fun _ _ _ => rfl) hm hv⟩,
    fun k hk hfirst => ?_⟩
  · rw [memRead_of_exec_storeRegs (s := s) (x := x) rfl hm hv hr, BitVec.ofNat_toNat, BitVec.setWidth_eq]
  · obtain ⟨m, hend, hframe⟩ := settle_storeAt_outOfBounds (encode (.storeRegs x))
      (g := fun t j => t.getV (BitVec.ofNat 4 j)) (fun _ _ _ => rfl) hm hk hfirst
    exact ⟨_, congrArg Host.Outcome.next hend, rfl, rfl, hframe⟩

/-! ### Runs of loads -/

/-- Settles O44: FX65 is a run of x + 1 loads, to the registers from V0 on. -/
theorem registersAreLoaded : Obligations.RegistersAreLoaded := by
  unfold Obligations.RegistersAreLoaded
  intro x s
  refine ⟨fun hv => ?_, fun k hk ⟨hbad, hbefore⟩ => ?_⟩
  · obtain ⟨t, hrun, heq, hget⟩ := accessUp_loadAt (x.toNat + 1) 0 s (by omega) fun j _ hj => hv j (by omega)
    refine ⟨t, by simp only [exec, execLoadRegs, hrun, settle], fun r hr => ?_, fun r hr => ?_, heq, ?_⟩
    · rw [hget, if_pos (by omega), memRead_valid (hv _ (by omega)), indexed_toNat]
    · rw [hget, if_neg (by omega)]
    · rw [heq]
      exact fun _ => rfl
  · obtain ⟨t, hrun, heq, hget⟩ := accessUp_loadAt_outOfBounds (x.toNat + 1) 0 k s (by omega) (Nat.zero_le k) (by omega)
      (fun j _ hj => hbefore j hj) hbad
    have hexec : exec (.loadRegs x) s = .next (t.raiseIn (encode (.loadRegs x)) .outOfBoundsAccess (some (s.indexed k)) none) := by
      simp only [exec, execLoadRegs, hrun, settle]
    refine ⟨_, hexec, ?_, fun r hr => (hget r).trans (if_neg (by omega)), ?_, ?_⟩ <;> rw [heq]
    · rfl
    · rfl
    · exact fun _ => rfl

end Sys2Proof.Machine

/-! PROOFS. DXYN (44_display.md R162, R163): a run of sprite rows as `accessUp_drawRow` draws it, then the flag. -/

namespace Sys2Proof.Machine

variable {s t : State} {x y n : Nibble}

/-- DXYN with its bytes in bounds: a framebuffer with the sprite XORed on, and the flag that says whether a set pixel lay under
a 1 bit. -/
theorem exec_drw_inBounds (x y : Nibble) (hf : Framebuffer.wf s.params s.fb)
    (hv : ∀ j < n.toNat, validAddr s.params (s.indexed j)) :
    ∃ fb c, exec (.drw x y n) s = .next ((s.setFb fb).setFlag c) ∧
      (∀ px py, px < s.params.fbWidth → py < s.params.fbHeight →
        Framebuffer.pixel fb px py = (s.readPixel px py ^^ spriteBit s (s.getV x).toNat (s.getV y).toNat n.toNat px py)) ∧
      (c = true ↔ ∃ px py, px < s.params.fbWidth ∧ py < s.params.fbHeight ∧ s.readPixel px py = true ∧
        spriteBit s (s.getV x).toNat (s.getV y).toNat n.toNat px py = true) := by
  obtain ⟨fb, c, hrun, hpix, hflag⟩ :=
    accessUp_drawRow (s.getV x).toNat (s.getV y).toNat n.toNat 0 s false hf fun j _ hj => hv j (by omega)
  refine ⟨fb, c, by simp only [exec, execDrw, hrun], fun px py hx hy => ?_, hflag.trans ?_⟩
  · rw [hpix px py hx hy, Nat.add_zero, Nat.zero_add]
    rfl
  · simp only [Bool.false_eq_true, false_or, Nat.add_zero, Nat.zero_add, spriteBit, Bool.and_eq_true, decide_eq_true_eq]
    rfl

/-- DXYN leaves the grid a grid. -/
theorem exec_drw_wf (h : exec (.drw x y n) s = .next t) (hf : Framebuffer.wf s.params s.fb) :
    Framebuffer.wf t.params t.fb := by
  cases exec_effect h with
  | drawn _ _ _ _ _ hw | drawnInPart _ _ _ _ _ hw => exact hw hf
  | jumped | registers | index | stored | storedInPart => exact hf

/-- Settles O34: the picture and the flag of `exec_drw_inBounds`; VF is written last. -/
theorem spriteIsXoredOntoTheScreen : Obligations.SpriteIsXoredOntoTheScreen := by
  unfold Obligations.SpriteIsXoredOntoTheScreen
  intro x y n s hf hv
  obtain ⟨fb, c, hexec, hpix, hflag⟩ := exec_drw_inBounds x y hf hv
  have hvf : ((s.setFb fb).setFlag c).getV 0xF#4 = flagByte c := getV_setV_self _ flagReg _
  refine ⟨_, hexec, hpix, fun hhit => ?_, fun hmiss => ?_, fun r hr => getV_setV_of_ne _ flagReg _ _ hr.symm, rfl, fun _ => rfl⟩
  · rw [hvf, hflag.2 hhit]
    rfl
  · have hc : c = false := by
      rw [← Bool.not_eq_true, hflag]
      rintro ⟨px, py, hx, hy, hset, hbit⟩
      exact Bool.false_ne_true ((hmiss px py hx hy hset).symm.trans hbit)
    rw [hvf, hc]
    rfl

/-- Settles O35: the rows stop at the first byte out of bounds, with only the framebuffer changed, and VF is not reached. -/
theorem spriteOutOfBoundsIsLatched : Obligations.SpriteOutOfBoundsIsLatched := by
  unfold Obligations.SpriteOutOfBoundsIsLatched
  intro x y n s j hj ⟨hbad, hbefore⟩
  obtain ⟨⟨t, c⟩, hrun⟩ := accessUp_drawRow_outOfBounds (s.getV x).toNat (s.getV y).toNat n.toNat 0 j (s, false)
    (Nat.zero_le j) (by omega) (fun k _ hk => hbefore k hk) hbad
  have hframe : t = s.setFb t.fb := (accessUp_drawRow_frame _ _ _ _ _).2 _ _ hrun
  have hexec : exec (.drw x y n) s = .next (t.raiseIn (encode (.drw x y n)) .outOfBoundsAccess (some (s.indexed j)) none) := by
    simp only [exec, execDrw, hrun]
  refine ⟨_, hexec, ?_, ?_, ?_⟩ <;> rw [hframe]
  · rfl
  · rfl
  · exact fun _ => rfl

/-- Settles O36: the first draw leaves the coordinates, I and memory alone, so the second toggles the same pixels again. -/
theorem drawingTwiceRestoresTheScreen : Obligations.DrawingTwiceRestoresTheScreen := by
  unfold Obligations.DrawingTwiceRestoresTheScreen
  intro x y n s t u hf hx hy hv hst htu px py hpx hpy
  obtain ⟨fb, c, hexec, hpix, -⟩ := exec_drw_inBounds x y hf hv
  have hwf := exec_drw_wf hst hf
  rw [hexec] at hst
  cases hst
  have hsame : ∀ r : Nibble, r ≠ 0xF#4 → ((s.setFb fb).setFlag c).getV r = s.getV r :=
    fun r hr => getV_setV_of_ne _ flagReg _ _ hr.symm
  obtain ⟨fb', c', hexec', hpix', -⟩ := exec_drw_inBounds (s := (s.setFb fb).setFlag c) (n := n) x y hwf hv
  rw [hexec'] at htu
  cases htu
  have hbit : ∀ x0 y0, spriteBit ((s.setFb fb).setFlag c) x0 y0 n.toNat px py = spriteBit s x0 y0 n.toNat px py :=
    fun _ _ => rfl
  have hsecond := hpix' px py hpx hpy
  have hfirst : ((s.setFb fb).setFlag c).readPixel px py = _ := hpix px py hpx hpy
  rw [hsame x hx, hsame y hy, hbit, hfirst, Bool.xor_assoc, Bool.xor_self, Bool.xor_false] at hsecond
  exact hsecond

end Sys2Proof.Machine

/-! PROOFS. Which instruction changes what (10_state.md R23, R28-R30, R33, R37, 20_memory.md R50, 60_exceptions.md R221): case
analyses of `exec_effect`, in which every shape but those of the named instructions leaves the field as it is. -/

namespace Sys2Proof.Machine

variable {i : Instr} {s t : State}

/-- The instructions that write I, by name. -/
theorem setsIndex_cases (h : setsIndex i) : (∃ nnn, i = .ldI nnn) ∨ (∃ x, i = .addI x) ∨ ∃ x, i = .ldF x := by
  cases i with
  | ldI nnn => exact .inl ⟨nnn, rfl⟩
  | addI x => exact .inr (.inl ⟨x, rfl⟩)
  | ldF x => exact .inr (.inr ⟨x, rfl⟩)
  | _ => exact h.elim

/-- The instructions that write memory, by name. -/
theorem storesBytes_cases (h : storesBytes i) : (∃ x, i = .ldB x) ∨ ∃ x, i = .storeRegs x := by
  cases i with
  | ldB x => exact .inl ⟨x, rfl⟩
  | storeRegs x => exact .inr ⟨x, rfl⟩
  | _ => exact h.elim

/-- Settles O46: of the effects only `index` writes I. -/
theorem onlyThreeInstructionsWriteI : Obligations.OnlyThreeInstructionsWriteI := by
  unfold Obligations.OnlyThreeInstructionsWriteI
  intro i s t h hldI haddI hldF
  cases exec_effect h with
  | index _ a hi =>
    obtain ⟨nnn, rfl⟩ | ⟨x, rfl⟩ | ⟨x, rfl⟩ := setsIndex_cases hi
    · exact absurd rfl (hldI nnn)
    · exact absurd rfl (haddI x)
    · exact absurd rfl (hldF x)
  | _ => rfl

/-- Settles O47: of the effects only `popped` and `pushed` write the stack, only `clear` and the two of DXYN the framebuffer. -/
theorem onlyCallReturnTouchTheStackOnlyClearDrawTheScreen :
    Obligations.OnlyCallReturnTouchTheStackOnlyClearDrawTheScreen := by
  unfold Obligations.OnlyCallReturnTouchTheStackOnlyClearDrawTheScreen
  intro i s t h
  refine ⟨fun hcall hret => ?_, fun hcls hdrw => ?_⟩
  · cases exec_effect h with
    | popped => exact absurd rfl hret
    | pushed nnn => exact absurd rfl (hcall nnn)
    | _ => rfl
  · cases exec_effect h with
    | clear => exact absurd rfl hcls
    | drawn x y n | drawnInPart x y n => exact absurd rfl (hdrw x y n)
    | _ => rfl

/-- Settles O48: of the effects only the two of FX33 and FX55 write memory. -/
theorem onlyBcdAndBlockStoreWriteMemory : Obligations.OnlyBcdAndBlockStoreWriteMemory := by
  unfold Obligations.OnlyBcdAndBlockStoreWriteMemory
  intro i s t h hldB hstore
  cases exec_effect h with
  | stored _ m hi | storedInPart _ m e hi =>
    obtain ⟨x, rfl⟩ | ⟨x, rfl⟩ := storesBytes_cases hi
    · exact absurd rfl (hldB x)
    · exact absurd rfl (hstore x)
  | _ => exact fun _ => rfl

/-- Settles O49: of the effects only `delay` writes DT and only `sound` writes ST. -/
theorem instructionsLeaveTimersAndHostAlone : Obligations.InstructionsLeaveTimersAndHostAlone := by
  unfold Obligations.InstructionsLeaveTimersAndHostAlone
  intro i s t h
  cases exec_effect h with
  | delay x => exact ⟨fun hdt => absurd rfl (hdt x), fun _ => rfl, rfl, rfl, rfl, rfl, rfl, rfl, rfl⟩
  | sound x => exact ⟨fun _ => rfl, fun hst => absurd rfl (hst x), rfl, rfl, rfl, rfl, rfl, rfl, rfl⟩
  | _ => exact ⟨fun _ => rfl, fun _ => rfl, rfl, rfl, rfl, rfl, rfl, rfl, rfl⟩

/-- Settles O50: five of the effects latch a record, which names P and the word; the others leave the latch clear. -/
theorem instructionsRaiseTheirErrorsAlone : Obligations.InstructionsRaiseTheirErrorsAlone := by
  unfold Obligations.InstructionsRaiseTheirErrorsAlone
  intro i s t r h hf hr
  cases exec_effect h with
  | underflow => cases hr; exact ⟨rfl, rfl, .inl ⟨rfl, rfl⟩⟩
  | overflow nnn => cases hr; exact ⟨rfl, rfl, .inr (.inl ⟨rfl, nnn, rfl⟩)⟩
  | drawnInPart | loadedInPart => cases hr; exact ⟨rfl, rfl, .inr (.inr ⟨rfl, rfl⟩)⟩
  | storedInPart _ m e hi => cases hr; exact ⟨rfl, rfl, .inr (.inr ⟨rfl, accessesMemory_of_storesBytes hi⟩)⟩
  | _ => exact absurd (hr.symm.trans hf) (Option.some_ne_none r)

end Sys2Proof.Machine
